-- ==== Sys2Proof/Word.lean ====
section
/-! DEFINITION. The value widths of the spec (00_scope.md R10: u4, u8, u12, u16) and nothing else. -/
namespace Sys2Proof

/-- u4: a register index, a key number, a sprite height. -/
abbrev Nibble := BitVec 4

/-- u8: a general register, a timer, a memory byte, a display cell, an immediate. -/
abbrev Byte := BitVec 8

/-- u12: an address field of an opcode. -/
abbrev Addr := BitVec 12

/-- u16: an opcode, I, PC, a return address. -/
abbrev Word := BitVec 16

/-- The index of a general register V0..VF (10_state.md R21). -/
abbrev Reg := Nibble

/-- The number of a logical key 0x0..0xF (10_state.md R31). -/
abbrev Key := Nibble

end Sys2Proof
end

