-- ==== Sys2Proof/Syntax.lean ====
section
/-! DEFINITION. The instructions: one constructor for each row of 30_encoding.md R74 (spec/opcode_table.json),
with the operand fields of 30_encoding.md R71 and R73. -/
namespace Sys2Proof

/-- 30_encoding.md R78: one constructor per row of R74. The unknown opcode is no instruction: it is the
explicit outcome `Decoded.unknown` of the decoder. -/
inductive Instr where
  /-- 00E0 CLS -/
  | cls
  /-- 00EE RET -/
  | ret
  /-- 0NNN SYS nnn -/
  | sys (nnn : Addr)
  /-- 1NNN JP nnn -/
  | jp (nnn : Addr)
  /-- 2NNN CALL nnn -/
  | call (nnn : Addr)
  /-- 3XKK SE Vx, kk -/
  | seImm (x : Reg) (kk : Byte)
  /-- 4XKK SNE Vx, kk -/
  | sneImm (x : Reg) (kk : Byte)
  /-- 5XY0 SE Vx, Vy -/
  | seReg (x y : Reg)
  /-- 6XKK LD Vx, kk -/
  | ldImm (x : Reg) (kk : Byte)
  /-- 7XKK ADD Vx, kk -/
  | addImm (x : Reg) (kk : Byte)
  /-- 8XY0 LD Vx, Vy -/
  | ldReg (x y : Reg)
  /-- 8XY1 OR Vx, Vy -/
  | orReg (x y : Reg)
  /-- 8XY2 AND Vx, Vy -/
  | andReg (x y : Reg)
  /-- 8XY3 XOR Vx, Vy -/
  | xorReg (x y : Reg)
  /-- 8XY4 ADD Vx, Vy -/
  | addReg (x y : Reg)
  /-- 8XY5 SUB Vx, Vy -/
  | subReg (x y : Reg)
  /-- 8XY6 SHR Vx, Vy -/
  | shr (x y : Reg)
  /-- 8XY7 SUBN Vx, Vy -/
  | subn (x y : Reg)
  /-- 8XYE SHL Vx, Vy -/
  | shl (x y : Reg)
  /-- 9XY0 SNE Vx, Vy -/
  | sneReg (x y : Reg)
  /-- ANNN LD I, nnn -/
  | ldI (nnn : Addr)
  /-- BNNN JP V0, nnn -/
  | jpV0 (nnn : Addr)
  /-- CXKK RND Vx, kk -/
  | rnd (x : Reg) (kk : Byte)
  /-- DXYN DRW Vx, Vy, n -/
  | drw (x y : Reg) (n : Nibble)
  /-- EX9E SKP Vx -/
  | skp (x : Reg)
  /-- EXA1 SKNP Vx -/
  | sknp (x : Reg)
  /-- FX07 LD Vx, DT -/
  | ldVxDT (x : Reg)
  /-- FX0A LD Vx, K -/
  | ldVxK (x : Reg)
  /-- FX15 LD DT, Vx -/
  | ldDTVx (x : Reg)
  /-- FX18 LD ST, Vx -/
  | ldSTVx (x : Reg)
  /-- FX1E ADD I, Vx -/
  | addIVx (x : Reg)
  /-- FX29 LD F, Vx -/
  | ldFVx (x : Reg)
  /-- FX33 LD B, Vx -/
  | ldBVx (x : Reg)
  /-- FX55 LD [I], Vx -/
  | ldMemVx (x : Reg)
  /-- FX65 LD Vx, [I] -/
  | ldVxMem (x : Reg)
  deriving DecidableEq, Repr

end Sys2Proof
end

