-- ==== Sys2Proof/Decode.lean ====
section
/-! DEFINITION. The decoder (30_encoding.md R70 to R78), the encoder, and the opcode map as data. The bit
patterns are the spec's, which marks them as general knowledge (30_encoding.md R74, 92_eei_decisions.md D1; log 7). -/
namespace Sys2Proof

/-! ## Fields (30_encoding.md R71) -/

/-- c = op[15:12], the class nibble. -/
def opClass (op : Word) : Nibble := op.extractLsb' 12 4

/-- x = op[11:8]. -/
def opX (op : Word) : Reg := op.extractLsb' 8 4

/-- y = op[7:4]. -/
def opY (op : Word) : Reg := op.extractLsb' 4 4

/-- n = op[3:0]. -/
def opN (op : Word) : Nibble := op.extractLsb' 0 4

/-- kk = op[7:0]. -/
def opKK (op : Word) : Byte := op.extractLsb' 0 8

/-- nnn = op[11:0]. -/
def opNNN (op : Word) : Addr := op.extractLsb' 0 12

/-! ## The decoder -/

/-- 30_encoding.md R78: an instruction, or the explicit unknown outcome carrying the word. -/
inductive Decoded where
  | instr (i : Instr)
  | unknown (op : Word)
  deriving DecidableEq, Repr

/-- Class 0x0: the exact words 00E0 and 00EE come before 0NNN (30_encoding.md R75). -/
def decodeClass0 (op : Word) : Decoded :=
  if op = 0x00E0#16 then .instr .cls
  else if op = 0x00EE#16 then .instr .ret
  else .instr (.sys (opNNN op))

/-- Class 0x5: only 5XY0 (30_encoding.md R76). -/
def decodeClass5 (op : Word) : Decoded :=
  if opN op = 0x0#4 then .instr (.seReg (opX op) (opY op)) else .unknown op

/-- Class 0x8: the sub-opcodes 0 to 7 and E (30_encoding.md R74, R76). -/
def decodeClass8 (op : Word) : Decoded :=
  let x := opX op
  let y := opY op
  match opN op with
  | 0x0#4 => .instr (.ldReg x y)
  | 0x1#4 => .instr (.orReg x y)
  | 0x2#4 => .instr (.andReg x y)
  | 0x3#4 => .instr (.xorReg x y)
  | 0x4#4 => .instr (.addReg x y)
  | 0x5#4 => .instr (.subReg x y)
  | 0x6#4 => .instr (.shr x y)
  | 0x7#4 => .instr (.subn x y)
  | 0xE#4 => .instr (.shl x y)
  | _ => .unknown op

/-- Class 0x9: only 9XY0 (30_encoding.md R76). -/
def decodeClass9 (op : Word) : Decoded :=
  if opN op = 0x0#4 then .instr (.sneReg (opX op) (opY op)) else .unknown op

/-- Class 0xE: the sub-opcodes 9E and A1 (30_encoding.md R74, R76). -/
def decodeClassE (op : Word) : Decoded :=
  let x := opX op
  match opKK op with
  | 0x9E#8 => .instr (.skp x)
  | 0xA1#8 => .instr (.sknp x)
  | _ => .unknown op

/-- Class 0xF: nine sub-opcodes (30_encoding.md R74, R76). -/
def decodeClassF (op : Word) : Decoded :=
  let x := opX op
  match opKK op with
  | 0x07#8 => .instr (.ldVxDT x)
  | 0x0A#8 => .instr (.ldVxK x)
  | 0x15#8 => .instr (.ldDTVx x)
  | 0x18#8 => .instr (.ldSTVx x)
  | 0x1E#8 => .instr (.addIVx x)
  | 0x29#8 => .instr (.ldFVx x)
  | 0x33#8 => .instr (.ldBVx x)
  | 0x55#8 => .instr (.ldMemVx x)
  | 0x65#8 => .instr (.ldVxMem x)
  | _ => .unknown op

/-- The decoder: a pure, total function of the 16-bit word (30_encoding.md R71, R74 to R77). -/
def decode (op : Word) : Decoded :=
  match opClass op with
  | 0x0#4 => decodeClass0 op
  | 0x1#4 => .instr (.jp (opNNN op))
  | 0x2#4 => .instr (.call (opNNN op))
  | 0x3#4 => .instr (.seImm (opX op) (opKK op))
  | 0x4#4 => .instr (.sneImm (opX op) (opKK op))
  | 0x5#4 => decodeClass5 op
  | 0x6#4 => .instr (.ldImm (opX op) (opKK op))
  | 0x7#4 => .instr (.addImm (opX op) (opKK op))
  | 0x8#4 => decodeClass8 op
  | 0x9#4 => decodeClass9 op
  | 0xA#4 => .instr (.ldI (opNNN op))
  | 0xB#4 => .instr (.jpV0 (opNNN op))
  | 0xC#4 => .instr (.rnd (opX op) (opKK op))
  | 0xD#4 => .instr (.drw (opX op) (opY op) (opN op))
  | 0xE#4 => decodeClassE op
  | _ => decodeClassF op

/-! ## Bytes (20_memory.md R54, R55) -/

/-- Why a string of bytes holds no instruction at its front. -/
inductive DecodeError where
  /-- The word matches no row (30_encoding.md R77). -/
  | unknownOpcode (op : Word)
  /-- Fewer than the two bytes of an opcode (30_encoding.md R70). -/
  | truncated
  deriving DecidableEq, Repr

/-- The opcode of two consecutive bytes, the high byte first (20_memory.md R54, R55). -/
def wordOfBytes (hi lo : Byte) : Word := hi ++ lo

/-- The two bytes of an opcode in memory order: the first stands at the lower address (20_memory.md R54). -/
def bytesOfWord (op : Word) : Byte × Byte := (op.extractLsb' 8 8, op.extractLsb' 0 8)

/-- The instruction at the front of a string of bytes, with the bytes after it; there is one length (30_encoding.md R70). -/
def decodeBytes : List Byte → Except DecodeError (Instr × List Byte)
  | hi :: lo :: rest =>
    match decode (wordOfBytes hi lo) with
    | .instr i => .ok (i, rest)
    | .unknown op => .error (.unknownOpcode op)
  | [_] => .error .truncated
  | [] => .error .truncated

/-! ## The encoder (the formats of 30_encoding.md R73) -/

/-- Format NNN. -/
def packNNN (c : Nibble) (nnn : Addr) : Word := c ++ nnn

/-- Formats XKK and XS8. -/
def packXKK (c : Nibble) (x : Reg) (kk : Byte) : Word := c ++ x ++ kk

/-- Formats XYS and XYN. -/
def packXYN (c : Nibble) (x y : Reg) (n : Nibble) : Word := c ++ x ++ y ++ n

/-- The word of an instruction (30_encoding.md R73, R74). -/
def encode : Instr → Word
  | .cls => 0x00E0#16
  | .ret => 0x00EE#16
  | .sys nnn => packNNN 0x0 nnn
  | .jp nnn => packNNN 0x1 nnn
  | .call nnn => packNNN 0x2 nnn
  | .seImm x kk => packXKK 0x3 x kk
  | .sneImm x kk => packXKK 0x4 x kk
  | .seReg x y => packXYN 0x5 x y 0x0
  | .ldImm x kk => packXKK 0x6 x kk
  | .addImm x kk => packXKK 0x7 x kk
  | .ldReg x y => packXYN 0x8 x y 0x0
  | .orReg x y => packXYN 0x8 x y 0x1
  | .andReg x y => packXYN 0x8 x y 0x2
  | .xorReg x y => packXYN 0x8 x y 0x3
  | .addReg x y => packXYN 0x8 x y 0x4
  | .subReg x y => packXYN 0x8 x y 0x5
  | .shr x y => packXYN 0x8 x y 0x6
  | .subn x y => packXYN 0x8 x y 0x7
  | .shl x y => packXYN 0x8 x y 0xE
  | .sneReg x y => packXYN 0x9 x y 0x0
  | .ldI nnn => packNNN 0xA nnn
  | .jpV0 nnn => packNNN 0xB nnn
  | .rnd x kk => packXKK 0xC x kk
  | .drw x y n => packXYN 0xD x y n
  | .skp x => packXKK 0xE x 0x9E
  | .sknp x => packXKK 0xE x 0xA1
  | .ldVxDT x => packXKK 0xF x 0x07
  | .ldVxK x => packXKK 0xF x 0x0A
  | .ldDTVx x => packXKK 0xF x 0x15
  | .ldSTVx x => packXKK 0xF x 0x18
  | .addIVx x => packXKK 0xF x 0x1E
  | .ldFVx x => packXKK 0xF x 0x29
  | .ldBVx x => packXKK 0xF x 0x33
  | .ldMemVx x => packXKK 0xF x 0x55
  | .ldVxMem x => packXKK 0xF x 0x65

/-! ## The opcode map as data (30_encoding.md R74) -/

/-- The mask and the match value of the row of an instruction, transcribed from 30_encoding.md R74. -/
def opcodeRow : Instr → Word × Word
  | .cls => (0xFFFF#16, 0x00E0#16)
  | .ret => (0xFFFF#16, 0x00EE#16)
  | .sys _ => (0xF000#16, 0x0000#16)
  | .jp _ => (0xF000#16, 0x1000#16)
  | .call _ => (0xF000#16, 0x2000#16)
  | .seImm _ _ => (0xF000#16, 0x3000#16)
  | .sneImm _ _ => (0xF000#16, 0x4000#16)
  | .seReg _ _ => (0xF00F#16, 0x5000#16)
  | .ldImm _ _ => (0xF000#16, 0x6000#16)
  | .addImm _ _ => (0xF000#16, 0x7000#16)
  | .ldReg _ _ => (0xF00F#16, 0x8000#16)
  | .orReg _ _ => (0xF00F#16, 0x8001#16)
  | .andReg _ _ => (0xF00F#16, 0x8002#16)
  | .xorReg _ _ => (0xF00F#16, 0x8003#16)
  | .addReg _ _ => (0xF00F#16, 0x8004#16)
  | .subReg _ _ => (0xF00F#16, 0x8005#16)
  | .shr _ _ => (0xF00F#16, 0x8006#16)
  | .subn _ _ => (0xF00F#16, 0x8007#16)
  | .shl _ _ => (0xF00F#16, 0x800E#16)
  | .sneReg _ _ => (0xF00F#16, 0x9000#16)
  | .ldI _ => (0xF000#16, 0xA000#16)
  | .jpV0 _ => (0xF000#16, 0xB000#16)
  | .rnd _ _ => (0xF000#16, 0xC000#16)
  | .drw _ _ _ => (0xF000#16, 0xD000#16)
  | .skp _ => (0xF0FF#16, 0xE09E#16)
  | .sknp _ => (0xF0FF#16, 0xE0A1#16)
  | .ldVxDT _ => (0xF0FF#16, 0xF007#16)
  | .ldVxK _ => (0xF0FF#16, 0xF00A#16)
  | .ldDTVx _ => (0xF0FF#16, 0xF015#16)
  | .ldSTVx _ => (0xF0FF#16, 0xF018#16)
  | .addIVx _ => (0xF0FF#16, 0xF01E#16)
  | .ldFVx _ => (0xF0FF#16, 0xF029#16)
  | .ldBVx _ => (0xF0FF#16, 0xF033#16)
  | .ldMemVx _ => (0xF0FF#16, 0xF055#16)
  | .ldVxMem _ => (0xF0FF#16, 0xF065#16)

/-- The 35 rows of 30_encoding.md R74 in the table's order, as (mask, match). -/
def opcodeRows : List (Word × Word) :=
  [(0xFFFF#16, 0x00E0#16), (0xFFFF#16, 0x00EE#16), (0xF000#16, 0x0000#16), (0xF000#16, 0x1000#16),
   (0xF000#16, 0x2000#16), (0xF000#16, 0x3000#16), (0xF000#16, 0x4000#16), (0xF00F#16, 0x5000#16)] ++
  [(0xF000#16, 0x6000#16), (0xF000#16, 0x7000#16), (0xF00F#16, 0x8000#16), (0xF00F#16, 0x8001#16),
   (0xF00F#16, 0x8002#16), (0xF00F#16, 0x8003#16), (0xF00F#16, 0x8004#16), (0xF00F#16, 0x8005#16)] ++
  [(0xF00F#16, 0x8006#16), (0xF00F#16, 0x8007#16), (0xF00F#16, 0x800E#16), (0xF00F#16, 0x9000#16),
   (0xF000#16, 0xA000#16), (0xF000#16, 0xB000#16), (0xF000#16, 0xC000#16), (0xF000#16, 0xD000#16)] ++
  [(0xF0FF#16, 0xE09E#16), (0xF0FF#16, 0xE0A1#16), (0xF0FF#16, 0xF007#16), (0xF0FF#16, 0xF00A#16),
   (0xF0FF#16, 0xF015#16), (0xF0FF#16, 0xF018#16), (0xF0FF#16, 0xF01E#16), (0xF0FF#16, 0xF029#16)] ++
  [(0xF0FF#16, 0xF033#16), (0xF0FF#16, 0xF055#16), (0xF0FF#16, 0xF065#16)]

/-- A word matches a row: `(op & mask) = match` (30_encoding.md R74). -/
def matchesRow (op : Word) (row : Word × Word) : Bool := op &&& row.1 == row.2

/-! ## The table's words -/

/-- The word of a table row laid out as `nbits` bits numbered from bit 0, the bits above them zero. -/
def tableWord (nbits w : Nat) : Word := BitVec.ofNat 16 (w % 2 ^ nbits)

/-- The instruction the decoder reads from the bytes of a table word (20_memory.md R54 gives their order). -/
def decodeTableWord (nbits w : Nat) : Option Instr :=
  let bytes := bytesOfWord (tableWord nbits w)
  match decodeBytes [bytes.1, bytes.2] with
  | .ok (i, _) => some i
  | .error _ => none

end Sys2Proof
end

