-- ==== Sys2Proof/Config.lean ====
section
/-! DEFINITION. The fixed sizes, the named parameters and the free values of the machine (00_scope.md R7, R8, R9). -/
namespace Sys2Proof

/-- 00_scope.md R7: the memory has 4096 bytes. -/
abbrev memSize : Nat := 4096

/-- 00_scope.md R7: a ROM is loaded at 0x200. -/
abbrev romBase : Nat := 0x200

/-- 00_scope.md R7: the font table begins at 0x50. -/
abbrev fontBase : Nat := 0x50

/-- 00_scope.md R7: the call stack holds at most 16 return addresses. -/
abbrev stackDepth : Nat := 16

/-- `SYS_POLICY` (00_scope.md R9): what 0NNN does. -/
inductive SysPolicy where
  | fatal
  | nop
  deriving DecidableEq, Repr, Inhabited

/-- `UNINIT_POLICY` (00_scope.md R9, 10_state.md R39): what a read of a never-written item does. -/
inductive UninitPolicy where
  | zero
  | fault
  deriving DecidableEq, Repr, Inhabited

/-- `KEY_INDEX_POLICY` (00_scope.md R9): what EX9E and EXA1 do with a register above 0xF. -/
inductive KeyIndexPolicy where
  | fault
  | lowNibble
  deriving DecidableEq, Repr, Inhabited

/-- `FONT_IMAGE` (00_scope.md R9, 70_reset_and_hazards.md R272): 16 glyphs of 5 bytes each. -/
abbrev FontImage := Vector (Vector Byte 5) 16

/-- The parameters of 00_scope.md R8 and R9 that some rule reads. Fixed for a run (10_state.md R36). -/
structure Config where
  /-- `Q_VF_RESET`: OR, AND and XOR clear VF. -/
  qVfReset : Bool
  /-- `Q_SHIFT_SRC_VY`: the shifts read Vy (else Vx). -/
  qShiftSrcVy : Bool
  /-- `Q_INDEX_INCREMENT`: FX55 and FX65 advance I by x + 1. -/
  qIndexIncrement : Bool
  /-- `Q_DRAW_CLIP`: sprite rows below the display are dropped (else they wrap modulo 32). -/
  qDrawClip : Bool
  /-- `Q_DRAW_THROTTLE`: at most one executed DXYN per frame. -/
  qDrawThrottle : Bool
  sysPolicy : SysPolicy
  uninitPolicy : UninitPolicy
  keyIndexPolicy : KeyIndexPolicy
  fontImage : FontImage
  deriving DecidableEq, Repr, Inhabited

/-- The glyphs 0 to 7 of the default font (93_implementation_defined.md G3).
PRESUMED by the spec from general knowledge (log 18). -/
def defaultGlyphsLow : Vector (Vector Byte 5) 8 :=
  #v[#v[0xF0, 0x90, 0x90, 0x90, 0xF0],
     #v[0x20, 0x60, 0x20, 0x20, 0x70],
     #v[0xF0, 0x10, 0xF0, 0x80, 0xF0],
     #v[0xF0, 0x10, 0xF0, 0x10, 0xF0],
     #v[0x90, 0x90, 0xF0, 0x10, 0x10],
     #v[0xF0, 0x80, 0xF0, 0x10, 0xF0],
     #v[0xF0, 0x80, 0xF0, 0x90, 0xF0],
     #v[0xF0, 0x10, 0x20, 0x40, 0x40]]

/-- The glyphs 8 to F of the default font (93_implementation_defined.md G3).
PRESUMED by the spec from general knowledge (log 18). -/
def defaultGlyphsHigh : Vector (Vector Byte 5) 8 :=
  #v[#v[0xF0, 0x90, 0xF0, 0x90, 0xF0],
     #v[0xF0, 0x90, 0xF0, 0x10, 0xF0],
     #v[0xF0, 0x90, 0xF0, 0x90, 0x90],
     #v[0xE0, 0x90, 0xE0, 0x90, 0xE0],
     #v[0xF0, 0x80, 0x80, 0x80, 0xF0],
     #v[0xE0, 0x90, 0x90, 0x90, 0xE0],
     #v[0xF0, 0x80, 0xF0, 0x80, 0xF0],
     #v[0xF0, 0x80, 0xF0, 0x80, 0x80]]

/-- The default `FONT_IMAGE` (70_reset_and_hazards.md R272, 93_implementation_defined.md G3). -/
def defaultFont : FontImage := defaultGlyphsLow ++ defaultGlyphsHigh

/-- The normative machine: every parameter at its default (00_scope.md R8, R9). -/
def Config.normative : Config where
  qVfReset := true
  qShiftSrcVy := true
  qIndexIncrement := true
  qDrawClip := true
  qDrawThrottle := true
  sysPolicy := .fatal
  uninitPolicy := .zero
  keyIndexPolicy := .fault
  fontImage := defaultFont

/-- `TIMER_TICK_RATE` (00_scope.md R9): the host's timer cadence. No rule depends on it and the spec gives
no value, so it has none here (log 17). -/
opaque Config.timerTickRate : Nat

/-- `RNG` (00_scope.md R9, 44_display_random.md R197): the byte of the k-th draw, a FREE VALUE: nothing
constrains it (log 6). -/
opaque Config.randomByte : Nat → Byte

end Sys2Proof
end

