-- ==== Sys2Proof/Machine/State.lean ====
section
/-! DEFINITION. The state of the core as plain data (10_state.md R20), its fatal errors (60_exceptions.md R232)
and its value right after construction (70_reset_and_hazards.md R270). -/
namespace Sys2Proof.Machine

/-- The 4096 bytes of 20_memory.md R50, held as the list of the bytes that are not zero: addresses strictly
rising, no byte 0x00; an address that is not listed reads 0x00 ("zero-initialized", R50). -/
structure Memory where
  cells : List Host.Cell
  deriving DecidableEq, Repr, Inhabited

/-- The phase of a key wait (10_state.md R32). -/
inductive WaitPhase where
  | waitingForPress
  | waitingForRelease (key : Key)
  deriving DecidableEq, Repr, Inhabited

/-- The execution state `Exec` (10_state.md R32). -/
inductive ExecState where
  | running
  | awaitingKey (register : Reg) (phase : WaitPhase)
  deriving DecidableEq, Repr, Inhabited

/-- An item whose first write is tracked under `UNINIT_POLICY = fault` (10_state.md R39). -/
inductive Item where
  | v (x : Reg)
  | i
  | dt
  | st
  deriving DecidableEq, Repr, Inhabited

/-- The bits of 10_state.md R39: which items have been written since construction. -/
structure Written where
  v : Vector Bool 16
  i : Bool
  dt : Bool
  st : Bool
  deriving DecidableEq, Repr, Inhabited

/-- The fatal errors of 60_exceptions.md R232, with the information each records. All stop the machine, as the
spec says the hardware does (R230, R236), so every one is safe. -/
inductive Fault where
  /-- Code 1. Raised by `load_rom` only, never by a step: the ROM has `length` bytes, more than fit
  (70_reset_and_hazards.md R273). Safe: the spec's own stop. -/
  | romTooLarge (length : Nat)
  /-- Code 2. Raised by CALL on a full stack, with the address of the CALL (10_state.md R27). Safe: the spec's own stop. -/
  | stackOverflow (address : Word)
  /-- Code 3. Raised by RET on an empty stack, with the address of the RET (10_state.md R28). Safe: the spec's own stop. -/
  | stackUnderflow (address : Word)
  /-- Code 4. Raised by the step on a word that matches no row, with the word and its address
  (30_encoding.md R77). Safe: the spec's own stop. -/
  | unknownOpcode (op address : Word)
  /-- Code 5. Raised by the fetch, FX33, FX55 and FX65 on a byte address of 0x1000 or more, with that
  address (20_memory.md R52, R53, R56). Safe: the spec's own stop. -/
  | memoryOutOfRange (address : Nat)
  /-- Code 6. Raised by SYS under `SYS_POLICY = fatal`, with the word and its address
  (41_control_flow.md R120). Safe: the spec's own stop. -/
  | sysUnmodelled (op address : Word)
  /-- Code 7. Raised by SKP and SKNP under `KEY_INDEX_POLICY = fault`, with the register's value
  (45_timers_keys.md section 2). Safe: the spec's own stop. -/
  | keyIndexOutOfRange (value : Byte)
  /-- Code 8. Raised under `UNINIT_POLICY = fault` by an instruction that reads an item never written
  (10_state.md R39). Safe: the spec's own stop. -/
  | uninitialisedRead (item : Item)
  deriving DecidableEq, Repr, Inhabited

/-- The numbers of the fatal errors (60_exceptions.md R232). -/
def Fault.code : Fault → Nat
  | .romTooLarge _ => 1
  | .stackOverflow _ => 2
  | .stackUnderflow _ => 3
  | .unknownOpcode _ _ => 4
  | .memoryOutOfRange _ => 5
  | .sysUnmodelled _ _ => 6
  | .keyIndexOutOfRange _ => 7
  | .uninitialisedRead _ => 8

/-- Why the model gives an instruction no meaning. Every instruction of the table has one. -/
inductive Refusal where
  /-- Raised only by an arm of exec whose instruction has no meaning yet; no arm is one now. Safe: the model stops. -/
  | notModelled (mnemonic : String)
  deriving DecidableEq, Repr, Inhabited

/-- The display: 32 rows of 64 cells, each a byte (10_state.md R30). -/
abbrev Display := Vector (Vector Byte 64) 32

/-- A 16-boolean key snapshot (10_state.md R31, 60_exceptions.md R244). -/
abbrev Keys := Vector Bool 16

/-- The state tuple of 10_state.md R20, then the written bits of R39 and the model's own two fields. -/
structure State where
  /-- Mem (20_memory.md R50). -/
  mem : Memory
  /-- V0..VF (10_state.md R21). -/
  v : Vector Byte 16
  /-- I (10_state.md R23). -/
  i : Word
  /-- PC (10_state.md R24). -/
  pc : Word
  /-- The call stack, the last element on top (10_state.md R25). -/
  stack : List Word
  /-- DT (10_state.md R29). -/
  dt : Byte
  /-- ST (10_state.md R29). -/
  st : Byte
  /-- Disp[r][c] (10_state.md R30). -/
  disp : Display
  /-- KeyCur (10_state.md R31). -/
  keyCur : Keys
  /-- KeyPrev (10_state.md R31). -/
  keyPrev : Keys
  /-- Exec (10_state.md R32). -/
  execState : ExecState
  /-- Redraw (10_state.md R33). -/
  redraw : Bool
  /-- Halt (10_state.md R34): none, or the fatal error. -/
  halt : Option Fault
  /-- The written bits (10_state.md R39), read only under `UNINIT_POLICY = fault`. DESIGN CHOICE (log 2):
  they are kept under both policies. Safe. -/
  written : Written
  /-- The model's own field: how many random bytes were drawn. DESIGN CHOICE (log 6). -/
  draws : Nat
  /-- The model's own field: the configuration, which the spec calls a parameter and no state
  (10_state.md R36). DESIGN CHOICE (log 1): it stands here because `exec` takes only an instruction and a
  state; no instruction and no host operation writes it. Safe. -/
  cfg : Config
  deriving DecidableEq, Repr, Inhabited

/-- The state right after construction, under a configuration (70_reset_and_hazards.md R270). The reset values
other than Mem and PC are the spec's own decision D4 (log 8); `draws` is the model's DESIGN CHOICE (log 6). -/
def State.construct (cfg : Config) : State where
  mem := ⟨[]⟩
  v := Vector.replicate 16 0x00#8
  i := 0x0000#16
  pc := 0x0200#16
  stack := []
  dt := 0x00#8
  st := 0x00#8
  disp := Vector.replicate 32 (Vector.replicate 64 0x00#8)
  keyCur := Vector.replicate 16 false
  keyPrev := Vector.replicate 16 false
  execState := .running
  redraw := false
  halt := none
  written := ⟨Vector.replicate 16 false, false, false, false⟩
  draws := 0
  cfg := cfg

/-- The normative machine right after construction (70_reset_and_hazards.md R270, 00_scope.md R8). -/
def State.reset : State := State.construct Config.normative

/-- The state after a fatal error but for Halt and the configuration: a FREE VALUE, of which the spec fixes nothing
(60_exceptions.md R236, 93_implementation_defined.md U8; log 3). -/
opaque State.unspecifiedRest : Fault → State → State

end Sys2Proof.Machine
end

