-- ==== Sys2Proof/Machine/Ops.lean ====
section
/-! DEFINITION. The named operations over the state: registers, memory, stack, fatal errors, the fetch, the
advance and the wait check (00_scope.md R11, 20_memory.md R51 to R54, 10_state.md R27, R28, 40_step_cycle.md R101 to R104). -/
namespace Sys2Proof.Machine

/-- What an instruction or a step answers. -/
abbrev Result := Host.Outcome State Fault Refusal

/-! ## Fatal errors (60_exceptions.md R231, R236) -/

/-- `raise Fatal(reason, info)`: the step ends at once and the machine stops with that fatal error. No trap,
handler or saved register exists (R230, R236); the outcome carries reason and information and no state,
since nothing of the halted state but Halt is specified (log 3). -/
def raiseFatal (f : Fault) : Result := .fault f

/-- The state the host finds after a fatal error: Halt records it, the configuration is that of the run (10_state.md
R36), the rest is unspecified (60_exceptions.md R231, R236; log 3). -/
def State.afterFatal (f : Fault) (s : State) : State :=
  { State.unspecifiedRest f s with halt := some f, cfg := s.cfg }

/-- The answer of an instruction that ran through its pseudocode, or raised on the way. -/
def finish : Except Fault State → Result
  | .ok t => .next t
  | .error f => raiseFatal f

/-! ## Written bits (10_state.md R39) -/

/-- Set the bit of an item. -/
def Written.mark (item : Item) (w : Written) : Written :=
  match item with
  | .v x => { w with v := w.v.set x.toNat true }
  | .i => { w with i := true }
  | .dt => { w with dt := true }
  | .st => { w with st := true }

/-- The bit of an item. -/
def Written.has (item : Item) (w : Written) : Bool :=
  match item with
  | .v x => w.v[x.toNat]
  | .i => w.i
  | .dt => w.dt
  | .st => w.st

/-- An instruction may read the item: always under `UNINIT_POLICY = zero`, once written under `fault` (10_state.md R39). -/
def State.readable (item : Item) (s : State) : Bool :=
  match s.cfg.uninitPolicy with
  | .zero => true
  | .fault => s.written.has item

/-! ## Registers (00_scope.md R11) -/

/-- The value of V[x]. -/
def State.getV (x : Reg) (s : State) : Byte := s.v[x.toNat]

/-- V[x] <- b; the write sets the item's bit (10_state.md R39). -/
def State.setV (x : Reg) (b : Byte) (s : State) : State :=
  { s with v := s.v.set x.toNat b, written := s.written.mark (.v x) }

/-- I <- a. -/
def State.setI (a : Word) (s : State) : State := { s with i := a, written := s.written.mark .i }

/-- DT <- b. -/
def State.setDT (b : Byte) (s : State) : State := { s with dt := b, written := s.written.mark .dt }

/-- ST <- b. -/
def State.setST (b : Byte) (s : State) : State := { s with st := b, written := s.written.mark .st }

/-- PC <- a. -/
def State.setPC (a : Word) (s : State) : State := { s with pc := a }

/-- Stack <- l. -/
def State.setStack (l : List Word) (s : State) : State := { s with stack := l }

/-- Mem <- m. -/
def State.setMem (m : Memory) (s : State) : State := { s with mem := m }

/-- Disp <- d. -/
def State.setDisp (d : Display) (s : State) : State := { s with disp := d }

/-- Exec <- e. -/
def State.setExec (e : ExecState) (s : State) : State := { s with execState := e }

/-- Redraw <- b. -/
def State.setRedraw (b : Bool) (s : State) : State := { s with redraw := b }

/-- KeyPrev and KeyCur, written together and by the host only (60_exceptions.md R244). -/
def State.setKeys (prev cur : Keys) (s : State) : State := { s with keyPrev := prev, keyCur := cur }

/-- One random byte has been drawn. -/
def State.countDraw (s : State) : State := { s with draws := s.draws + 1 }

/-- Read V[x] in an instruction (10_state.md R39). -/
def readV (x : Reg) (s : State) : Except Fault Byte :=
  if s.readable (.v x) then .ok (s.getV x) else .error (.uninitialisedRead (.v x))

/-- Read I in an instruction (10_state.md R39). -/
def readI (s : State) : Except Fault Word :=
  if s.readable .i then .ok s.i else .error (.uninitialisedRead .i)

/-- Read DT in an instruction (10_state.md R39). -/
def readDT (s : State) : Except Fault Byte :=
  if s.readable .dt then .ok s.dt else .error (.uninitialisedRead .dt)

/-! ## Memory (20_memory.md) -/

/-- The byte the list gives an address; an address that is not listed reads 0x00. -/
def lookupCell (a : Nat) : List Host.Cell → Byte
  | [] => 0x00#8
  | c :: cs => if c.1 = a then c.2 else lookupCell a cs

/-- Put a cell in front of the first cell of a greater address. -/
def insertCell (a : Nat) (b : Byte) : List Host.Cell → List Host.Cell
  | [] => [(a, b)]
  | c :: cs => if a < c.1 then (a, b) :: c :: cs else c :: insertCell a b cs

/-- Mem[a]. -/
def Memory.read (a : Nat) (m : Memory) : Byte := lookupCell a m.cells

/-- Mem[a] <- b: writing 0x00, which an unlisted address reads as, removes the cell. -/
def Memory.write (a : Nat) (b : Byte) (m : Memory) : Memory :=
  let others := m.cells.filter (fun c => c.1 != a)
  ⟨if b = 0x00#8 then others else insertCell a b others⟩

/-- Addresses strictly rise along the list. -/
def risingCells : List Host.Cell → Bool
  | [] => true
  | c :: cs => cs.all (fun d => decide (c.1 < d.1)) && risingCells cs

/-- The canonical form: addresses rise, each is an address of the memory (20_memory.md R50), and no cell holds
the byte an unlisted address reads as. -/
def Memory.wf (m : Memory) : Bool :=
  risingCells m.cells && m.cells.all (fun c => decide (c.1 < memSize) && c.2 != 0x00#8)

/-- `MemRead(addr, 1)` (20_memory.md R52). -/
def memRead (addr : Nat) (s : State) : Except Fault Byte :=
  if addr < memSize then .ok (s.mem.read addr) else .error (.memoryOutOfRange addr)

/-- `MemWrite(addr, 1, b)` (20_memory.md R53). -/
def memWrite (addr : Nat) (b : Byte) (s : State) : Except Fault State :=
  if addr < memSize then .ok (s.setMem (s.mem.write addr b)) else .error (.memoryOutOfRange addr)

/-- `MemRead(addr, 2)`: high byte first (20_memory.md R54). -/
def memReadWord (addr : Nat) (s : State) : Except Fault Word := do
  let hi ← memRead addr s
  let lo ← memRead (addr + 1) s
  return wordOfBytes hi lo

/-- Write a list of bytes at consecutive addresses (the host's writes before the first step). -/
def Memory.writeBytes (base : Nat) : List Byte → Memory → Memory
  | [], m => m
  | b :: bs, m => Memory.writeBytes (base + 1) bs (m.write base b)

/-! ## The call stack -/

/-- The address of the executing instruction, since the step has added 2 to PC (40_step_cycle.md R102). -/
def State.opAddress (s : State) : Word := s.pc - 2

/-- `Push(a)` (10_state.md R27); the recorded address is the instruction's own (60_exceptions.md R232; DEDUCED, log 4). -/
def push (a : Word) (s : State) : Except Fault State :=
  if s.stack.length < stackDepth then .ok (s.setStack (s.stack ++ [a]))
  else .error (.stackOverflow s.opAddress)

/-- `Pop()` (10_state.md R28); the recorded address is the instruction's own (60_exceptions.md R232; DEDUCED, log 4). -/
def pop (s : State) : Except Fault (Word × State) :=
  match s.stack.getLast? with
  | some a => .ok (a, s.setStack s.stack.dropLast)
  | none => .error (.stackUnderflow s.opAddress)

/-! ## PC -/

/-- PC <- trunc_16(PC + 2): the advance of the step (40_step_cycle.md R102). -/
def State.advance (s : State) : State := s.setPC (s.pc + 2)

/-- A skip passes over the next 2-byte word, whatever it holds (41_control_flow.md R128). -/
def State.skipIf (taken : Bool) (s : State) : State := if taken then s.setPC (s.pc + 2) else s

/-- PC <- trunc_16(PC - 2): a stalled draw goes back to its own address (44_display_random.md R193). -/
def State.rewind (s : State) : State := s.setPC (s.pc - 2)

/-! ## The fetch (40_step_cycle.md R101) -/

/-- The big-endian word at PC and PC + 1. -/
def fetch (s : State) : Except Fault Word := memReadWord s.pc.toNat s

/-! ## The key wait (40_step_cycle.md R104) -/

/-- KeyCur[k]. -/
def State.pressed (k : Key) (s : State) : Bool := s.keyCur[k.toNat]

/-- KeyPrev[k]. -/
def State.wasPressed (k : Key) (s : State) : Bool := s.keyPrev[k.toNat]

/-- The press edge of a key (00_scope.md R15). -/
def State.pressEdge (k : Key) (s : State) : Bool := !s.wasPressed k && s.pressed k

/-- The keys 0x0 to 0xF, rising. -/
def allKeys : List Key := (List.range 16).map (BitVec.ofNat 4)

/-- min(E): the lowest-numbered key with a press edge (40_step_cycle.md R104, the spec's decision D16; log 16). -/
def State.firstPressEdge (s : State) : Option Key := allKeys.find? (fun k => s.pressEdge k)

/-- The wait check (40_step_cycle.md R104): at most one transition. -/
def waitCheck (register : Reg) (phase : WaitPhase) (s : State) : State :=
  match phase with
  | .waitingForPress =>
    match s.firstPressEdge with
    | some k => (s.setV register (k.setWidth 8)).setExec (.awaitingKey register (.waitingForRelease k))
    | none => s
  | .waitingForRelease k => if s.pressed k then s else s.setExec .running

end Sys2Proof.Machine
end

