-- ==== Sys2Proof/Machine/Flags.lean ====
section
/-! DEFINITION. Every flag computation of the spec (10_state.md R22, R37): the only flag is VF. -/
namespace Sys2Proof.Machine

/-- A flag as the byte written to VF: 0x01 or 0x00 (42_register_alu.md R151). -/
def flagByte (flag : Bool) : Byte := if flag then 0x01#8 else 0x00#8

/-- VF <- flag, always the last write of its instruction to a V register (10_state.md R22, 00_scope.md R12; log 9). -/
def State.setFlag (flag : Bool) (s : State) : State := s.setV 0xF#4 (flagByte flag)

/-- Carry out of the widened sum (42_register_alu.md R146). -/
def carryFlag (a b : Byte) : Bool := decide (a.toNat + b.toNat > 255)

/-- No borrow: the minuend is strictly greater (42_register_alu.md R147, R148). -/
def noBorrowFlag (minuend subtrahend : Byte) : Bool := decide (minuend.toNat > subtrahend.toNat)

/-- The bit a right shift moves out: bit 0 of the source (42_register_alu.md R149). -/
def shrFlag (source : Byte) : Bool := source.getLsbD 0

/-- The bit a left shift moves out: bit 7 of the source (42_register_alu.md R150). -/
def shlFlag (source : Byte) : Bool := source.getLsbD 7

/-- The side effect of OR, AND and XOR: VF <- 0x00 under `Q_VF_RESET` (42_register_alu.md R143 to R145). -/
def State.logicReset (s : State) : State := if s.cfg.qVfReset then s.setV 0xF#4 0x00#8 else s

end Sys2Proof.Machine
end

