-- ==== Sys2Proof/Machine/Operands.lean ====
section
/-! DEFINITION. Every operand form of the spec: immediates, register values, addresses formed from I, key
indices, the shift source and the sprite (30_encoding.md R72, 43_memory_index.md R176, 45_timers_keys.md section 2,
44_display_random.md R192). -/
namespace Sys2Proof.Machine

/-- zext_16(nnn): an address operand (30_encoding.md R72). -/
def addrOperand (nnn : Addr) : Word := nnn.setWidth 16

/-- The word of a SYS, which its fatal error records (41_control_flow.md R120). -/
def sysWord (nnn : Addr) : Word := encode (.sys nnn)

/-- nnn + V0, not reduced modulo 0x1000 (41_control_flow.md R129). -/
def indexedTarget (nnn : Addr) (v0 : Byte) : Word := nnn.setWidth 16 + v0.setWidth 16

/-- 0x0050 + 5 * V[x], the full byte (43_memory_index.md R172). -/
def glyphAddress (digit : Byte) : Word := BitVec.ofNat 16 (fontBase + 5 * digit.toNat)

/-- The address of access k of FX33, FX55 and FX65: I + k, a natural number, not reduced (43_memory_index.md R176). -/
def dataAddress (i : Word) (k : Nat) : Nat := i.toNat + k

/-- The address of sprite row r: reduced modulo 0x1000, here only (20_memory.md R56, 44_display_random.md R192). -/
def spriteAddress (i : Word) (r : Nat) : Nat := (i.toNat + r) % 0x1000

/-- I <- trunc_16(I + x + 1) when `Q_INDEX_INCREMENT` (43_memory_index.md R174, R175). -/
def State.advanceIndex (x : Reg) (s : State) : State :=
  if s.cfg.qIndexIncrement then s.setI (BitVec.ofNat 16 (s.i.toNat + x.toNat + 1)) else s

/-- The register a shift reads: Vy under `Q_SHIFT_SRC_VY`, else Vx (42_register_alu.md R149, R150). -/
def shiftSource (x y : Reg) (s : State) : Reg := if s.cfg.qShiftSrcVy then y else x

/-- `key_index(v)` (45_timers_keys.md section 2). -/
def keyIndex (value : Byte) (s : State) : Except Fault Key :=
  if value.toNat ≤ 0xF then .ok (value.setWidth 4)
  else
    match s.cfg.keyIndexPolicy with
    | .fault => .error (.keyIndexOutOfRange value)
    | .lowNibble => .ok (value.setWidth 4)

/-! ## The sprite and the blit (44_display_random.md R192) -/

/-- The n sprite bytes. Their addresses are below 0x1000, so no read of them raises MemoryOutOfRange; with
n = 0 nothing is read, I neither (44_display_random.md R191, R196). -/
def spriteRows (n : Nibble) (s : State) : Except Fault (List Byte) :=
  if n = 0#4 then .ok []
  else do
    let i ← readI s
    return (List.range n.toNat).map (fun r => s.mem.read (spriteAddress i r))

/-- Disp[r][c]. -/
def Display.cell (row : Fin 32) (col : Fin 64) (d : Display) : Byte := (d[row])[col]

/-- Disp[r][c] <- b. -/
def Display.setCell (row : Fin 32) (col : Fin 64) (b : Byte) (d : Display) : Display :=
  d.set row ((d[row]).set col b)

/-- A sprite bit of 1 on a cell: on goes off and collides, anything else goes on (44_display_random.md R192). -/
def flipCell (row : Fin 32) (col : Fin 64) (acc : Display × Bool) : Display × Bool :=
  if acc.1.cell row col = 255#8 then (acc.1.setCell row col 0#8, true)
  else (acc.1.setCell row col 255#8, acc.2)

/-- Column (x0 + c) mod 64: the horizontal span wraps (44_display_random.md R192). -/
def spriteColumn (x0 c : Nat) : Fin 64 := Fin.ofNat 64 (x0 + c)

/-- The display row of a sprite row: none when it is below the display and clipped, else modulo 32
(44_display_random.md R192, R195). -/
def spriteRow (clip : Bool) (row : Nat) : Option (Fin 32) :=
  if row < 32 then some (Fin.ofNat 32 row) else if clip then none else some (Fin.ofNat 32 row)

/-- One sprite byte on one display row; bit 7 is the leftmost pixel (44_display_random.md R192, decision D14; log 14). -/
def blitByte (row : Fin 32) (x0 : Nat) (bits : Byte) (acc : Display × Bool) : Display × Bool :=
  (List.range 8).foldl
    (fun acc c => if bits.getLsbD (7 - c) then flipCell row (spriteColumn x0 c) acc else acc) acc

/-- The rows of a sprite from display row `row` on (44_display_random.md R192). -/
def blitRows (clip : Bool) (x0 : Nat) : Nat → List Byte → Display × Bool → Display × Bool
  | _, [], acc => acc
  | row, bits :: rest, acc =>
    blitRows clip x0 (row + 1) rest
      (match spriteRow clip row with
       | some r => blitByte r x0 bits acc
       | none => acc)

/-- `blit(x0, y0, rows)`: the display after it, and whether an on cell was turned off (44_display_random.md R192, R194). -/
def blit (clip : Bool) (x0 y0 : Nat) (rows : List Byte) (d : Display) : Display × Bool :=
  blitRows clip x0 y0 rows (d, false)

/-- Every cell off (44_display_random.md R190). -/
def clearedDisplay : Display := Vector.replicate 32 (Vector.replicate 64 0x00#8)

/-- 10_state.md R30: every cell of the display holds 0 or 255. -/
def Display.wf (d : Display) : Bool := d.toList.all (fun row => row.toList.all (fun b => b == 0#8 || b == 255#8))

end Sys2Proof.Machine
end

