-- ==== Sys2Proof/Machine/ControlFlow.lean ====
section
/-! DEFINITION. The control flow instructions (41_control_flow.md): SYS, RET, JP, CALL, the register skips, JP V0.
In every meaning PC already holds the opcode's address + 2 (40_step_cycle.md R102). -/
namespace Sys2Proof.Machine

/-- SYS nnn (41_control_flow.md R120): per `SYS_POLICY`. -/
def execSys (nnn : Addr) (s : State) : Result :=
  match s.cfg.sysPolicy with
  | .fatal => raiseFatal (.sysUnmodelled (sysWord nnn) s.opAddress)
  | .nop => .next s

/-- RET (41_control_flow.md R121). -/
def execRet (s : State) : Result :=
  finish do
    let (a, t) ← pop s
    return t.setPC a

/-- JP nnn (41_control_flow.md R122). -/
def execJp (nnn : Addr) (s : State) : Result := .next (s.setPC (addrOperand nnn))

/-- CALL nnn (41_control_flow.md R123). -/
def execCall (nnn : Addr) (s : State) : Result :=
  finish do
    let t ← push s.pc s
    return t.setPC (addrOperand nnn)

/-- SE Vx, kk (41_control_flow.md R124). -/
def execSeImm (x : Reg) (kk : Byte) (s : State) : Result :=
  finish do
    let a ← readV x s
    return s.skipIf (a == kk)

/-- SNE Vx, kk (41_control_flow.md R125). -/
def execSneImm (x : Reg) (kk : Byte) (s : State) : Result :=
  finish do
    let a ← readV x s
    return s.skipIf (a != kk)

/-- SE Vx, Vy (41_control_flow.md R126). -/
def execSeReg (x y : Reg) (s : State) : Result :=
  finish do
    let a ← readV x s
    let b ← readV y s
    return s.skipIf (a == b)

/-- SNE Vx, Vy (41_control_flow.md R127). -/
def execSneReg (x y : Reg) (s : State) : Result :=
  finish do
    let a ← readV x s
    let b ← readV y s
    return s.skipIf (a != b)

/-- JP V0, nnn (41_control_flow.md R129). -/
def execJpV0 (nnn : Addr) (s : State) : Result :=
  finish do
    let a ← readV 0x0#4 s
    return s.setPC (indexedTarget nnn a)

end Sys2Proof.Machine
end

