-- ==== Sys2Proof/Machine/DisplayRandom.lean ====
section
/-! DEFINITION. CLS, DRW and RND (44_display_random.md). -/
namespace Sys2Proof.Machine

/-- CLS (44_display_random.md R190): Redraw is not changed (log 15). -/
def execCls (s : State) : Result := .next (s.setDisp clearedDisplay)

/-- The draw throttle holds a DXYN back (44_display_random.md R193). -/
def State.drawStalls (s : State) : Bool := s.cfg.qDrawThrottle && s.redraw

/-- DRW Vx, Vy, n when it executes (44_display_random.md R191): the coordinates are read before VF is written. -/
def drawSprite (x y : Reg) (n : Nibble) (s : State) : Except Fault State := do
  let vx ← readV x s
  let vy ← readV y s
  let rows ← spriteRows n s
  let drawn := blit s.cfg.qDrawClip (vx.toNat % 64) (vy.toNat % 32) rows s.disp
  return ((s.setDisp drawn.1).setFlag drawn.2).setRedraw true

/-- DRW Vx, Vy, n (44_display_random.md R191, R193). -/
def execDrw (x y : Reg) (n : Nibble) (s : State) : Result :=
  if s.drawStalls then .next s.rewind else finish (drawSprite x y n s)

/-- RND Vx, kk with the drawn byte b (44_display_random.md R197). -/
def State.setRandom (b : Byte) (x : Reg) (kk : Byte) (s : State) : State := s.setV x (b &&& kk)

/-- RND Vx, kk (44_display_random.md R197): the drawn byte is a free value (log 6). -/
def execRnd (x : Reg) (kk : Byte) (s : State) : Result :=
  .next (s.setRandom (Config.randomByte s.draws) x kk).countDraw

end Sys2Proof.Machine
end

