-- ==== Sys2Proof/Machine/MemoryIndex.lean ====
section
/-! DEFINITION. The memory and index-register instructions (43_memory_index.md). -/
namespace Sys2Proof.Machine

/-- LD I, nnn (43_memory_index.md R170). -/
def execLdI (nnn : Addr) (s : State) : Result := .next (s.setI (addrOperand nnn))

/-- ADD I, Vx (43_memory_index.md R171): modulo 2^16, no flag (log 11). -/
def execAddIVx (x : Reg) (s : State) : Result :=
  finish do
    let i ← readI s
    let a ← readV x s
    return s.setI (BitVec.ofNat 16 (i.toNat + a.toNat))

/-- LD F, Vx (43_memory_index.md R172): the full byte, not masked (log 12). -/
def execLdFVx (x : Reg) (s : State) : Result :=
  finish do
    let a ← readV x s
    return s.setI (glyphAddress a)

/-- LD B, Vx (43_memory_index.md R173): hundreds, tens, ones at I, I + 1, I + 2. -/
def execLdBVx (x : Reg) (s : State) : Result :=
  finish do
    let a ← readV x s
    let i ← readI s
    let s1 ← memWrite (dataAddress i 0) (BitVec.ofNat 8 (a.toNat / 100)) s
    let s2 ← memWrite (dataAddress i 1) (BitVec.ofNat 8 (a.toNat / 10 % 10)) s1
    memWrite (dataAddress i 2) (BitVec.ofNat 8 (a.toNat % 10)) s2

/-- Store `count` registers from V[k] on, ascending, register k at I + k (43_memory_index.md R174). -/
def storeRegs (i : Word) : (count k : Nat) → State → Except Fault State
  | 0, _, s => .ok s
  | count + 1, k, s => do
    let b ← readV (BitVec.ofNat 4 k) s
    let t ← memWrite (dataAddress i k) b s
    storeRegs i count (k + 1) t

/-- Load `count` registers from V[k] on, ascending, register k from I + k (43_memory_index.md R175). -/
def loadRegs (i : Word) : (count k : Nat) → State → Except Fault State
  | 0, _, s => .ok s
  | count + 1, k, s => do
    let b ← memRead (dataAddress i k) s
    loadRegs i count (k + 1) (s.setV (BitVec.ofNat 4 k) b)

/-- LD [I], Vx (43_memory_index.md R174). -/
def execLdMemVx (x : Reg) (s : State) : Result :=
  finish do
    let i ← readI s
    let t ← storeRegs i (x.toNat + 1) 0 s
    return t.advanceIndex x

/-- LD Vx, [I] (43_memory_index.md R175). -/
def execLdVxMem (x : Reg) (s : State) : Result :=
  finish do
    let i ← readI s
    let t ← loadRegs i (x.toNat + 1) 0 s
    return t.advanceIndex x

end Sys2Proof.Machine
end

