-- ==== Sys2Proof/Machine/RegisterAlu.lean ====
section
/-! DEFINITION. Register transfer, logic, arithmetic and shifts (42_register_alu.md). Operands are read before any
write and the flag is the last write (00_scope.md R12; log 9). -/
namespace Sys2Proof.Machine

/-- LD Vx, kk (42_register_alu.md R140). -/
def execLdImm (x : Reg) (kk : Byte) (s : State) : Result := .next (s.setV x kk)

/-- ADD Vx, kk (42_register_alu.md R141): no flag (log 10). -/
def execAddImm (x : Reg) (kk : Byte) (s : State) : Result :=
  finish do
    let a ← readV x s
    return s.setV x (BitVec.ofNat 8 (a.toNat + kk.toNat))

/-- LD Vx, Vy (42_register_alu.md R142): no flag (log 10). -/
def execLdReg (x y : Reg) (s : State) : Result :=
  finish do
    let b ← readV y s
    return s.setV x b

/-- The shape of OR, AND and XOR (42_register_alu.md R143 to R145). -/
def logicOp (f : Byte → Byte → Byte) (x y : Reg) (s : State) : Except Fault State := do
  let a ← readV x s
  let b ← readV y s
  return (s.setV x (f a b)).logicReset

/-- OR Vx, Vy (42_register_alu.md R143). -/
def execOrReg (x y : Reg) (s : State) : Result := finish (logicOp (fun a b => a ||| b) x y s)

/-- AND Vx, Vy (42_register_alu.md R144). -/
def execAndReg (x y : Reg) (s : State) : Result := finish (logicOp (fun a b => a &&& b) x y s)

/-- XOR Vx, Vy (42_register_alu.md R145). -/
def execXorReg (x y : Reg) (s : State) : Result := finish (logicOp (fun a b => a ^^^ b) x y s)

/-- ADD Vx, Vy (42_register_alu.md R146). -/
def execAddReg (x y : Reg) (s : State) : Result :=
  finish do
    let a ← readV x s
    let b ← readV y s
    return (s.setV x (BitVec.ofNat 8 (a.toNat + b.toNat))).setFlag (carryFlag a b)

/-- A difference modulo 256 and its no-borrow flag, written to Vx and VF (42_register_alu.md R147, R148). -/
def State.setDifference (x : Reg) (minuend subtrahend : Byte) (s : State) : State :=
  (s.setV x (BitVec.ofNat 8 (minuend.toNat + 256 - subtrahend.toNat))).setFlag
    (noBorrowFlag minuend subtrahend)

/-- SUB Vx, Vy (42_register_alu.md R147). -/
def execSubReg (x y : Reg) (s : State) : Result :=
  finish do
    let a ← readV x s
    let b ← readV y s
    return s.setDifference x a b

/-- SUBN Vx, Vy (42_register_alu.md R148). -/
def execSubn (x y : Reg) (s : State) : Result :=
  finish do
    let a ← readV y s
    let b ← readV x s
    return s.setDifference x a b

/-- SHR Vx, Vy (42_register_alu.md R149). -/
def execShr (x y : Reg) (s : State) : Result :=
  finish do
    let a ← readV (shiftSource x y s) s
    return (s.setV x (a >>> 1)).setFlag (shrFlag a)

/-- SHL Vx, Vy (42_register_alu.md R150). -/
def execShl (x y : Reg) (s : State) : Result :=
  finish do
    let a ← readV (shiftSource x y s) s
    return (s.setV x (a <<< 1)).setFlag (shlFlag a)

end Sys2Proof.Machine
end

