-- ==== Sys2Proof/Machine/TimersKeys.lean ====
section
/-! DEFINITION. The timer and key instructions (45_timers_keys.md). -/
namespace Sys2Proof.Machine

/-- LD Vx, DT (45_timers_keys.md R210). -/
def execLdVxDT (x : Reg) (s : State) : Result :=
  finish do
    let a ← readDT s
    return s.setV x a

/-- LD DT, Vx (45_timers_keys.md R211). -/
def execLdDTVx (x : Reg) (s : State) : Result :=
  finish do
    let a ← readV x s
    return s.setDT a

/-- LD ST, Vx (45_timers_keys.md R212). -/
def execLdSTVx (x : Reg) (s : State) : Result :=
  finish do
    let a ← readV x s
    return s.setST a

/-- SKP Vx (45_timers_keys.md R213): KeyCur only. -/
def execSkp (x : Reg) (s : State) : Result :=
  finish do
    let a ← readV x s
    let k ← keyIndex a s
    return s.skipIf (s.pressed k)

/-- SKNP Vx (45_timers_keys.md R214): KeyCur only. -/
def execSknp (x : Reg) (s : State) : Result :=
  finish do
    let a ← readV x s
    let k ← keyIndex a s
    return s.skipIf (!s.pressed k)

/-- LD Vx, K (45_timers_keys.md R215): the wait begins; this step looks at no key (log 16). -/
def execLdVxK (x : Reg) (s : State) : Result :=
  .next (s.setExec (.awaitingKey x .waitingForPress))

end Sys2Proof.Machine
end

