-- ==== Sys2Proof/Machine/Step.lean ====
section
/-! DEFINITION. The step (40_step_cycle.md R100 to R104, R108). -/
namespace Sys2Proof.Machine

/-- The Running case: fetch, advance, decode, execute (40_step_cycle.md R100 to R103). -/
def runInstruction (s : State) : Result :=
  match fetch s with
  | .error f => raiseFatal f
  | .ok op =>
    match decode op with
    | .instr i => exec i s.advance
    | .unknown w => raiseFatal (.unknownOpcode w s.pc)

/-- `step()` (40_step_cycle.md R100). A halted machine has no successor: it answers the fatal error that halted
it (R108; log 3). -/
def step (s : State) : Host.Outcome State Fault Refusal :=
  match s.halt with
  | some f => .fault f
  | none =>
    match s.execState with
    | .running => runInstruction s
    | .awaitingKey register phase => .next (waitCheck register phase s)

/-- `s` with the instruction of a table word stored where `step` fetches next: the two bytes at PC, the machine
Running and not halted, and PC back at the entry point if no opcode can be fetched at it (log 19). -/
def State.withFetchWord (s : State) (nbits w : Nat) : State :=
  let pc : Word := if s.pc.toNat + 1 < memSize then s.pc else 0x0200#16
  let bytes := bytesOfWord (tableWord nbits w)
  { s with
    pc := pc
    mem := s.mem.writeBytes pc.toNat [bytes.1, bytes.2]
    execState := .running
    halt := none }

end Sys2Proof.Machine
end

