-- ==== Sys2Proof/Machine/Driver.lean ====
section
/-! DEFINITION. The host's operations (60_exceptions.md R243 to R251) and the boot (70_reset_and_hazards.md R270 to
R274). They happen between steps, never inside one. -/
namespace Sys2Proof.Machine

/-! ## Between steps -/

/-- One timer's decrement toward zero (60_exceptions.md R243). -/
def countDown (b : Byte) : Byte := BitVec.ofNat 8 (b.toNat - 1)

/-- `TimerTick` (60_exceptions.md R243): both timers, neither below 0. A timer that `UNINIT_POLICY = fault` calls
unwritten counts as 0 (DESIGN CHOICE, log 24). -/
def State.timerTick (s : State) : State :=
  let t := if s.dt.toNat > 0 then s.setDT (countDown s.dt) else s
  if t.st.toNat > 0 then t.setST (countDown t.st) else t

/-- `SetKeys(snapshot)` (60_exceptions.md R244). -/
def State.takeKeys (snapshot : Keys) (s : State) : State := s.setKeys s.keyCur snapshot

/-- `FrameBoundary` (60_exceptions.md R245). -/
def State.frameBoundary (s : State) : State := s.setRedraw false

/-- One call the host may make on a running machine (60_exceptions.md R250, R252). -/
inductive Move where
  | step
  | timerTick
  | setKeys (snapshot : Keys)
  | frameBoundary
  deriving DecidableEq, Repr

/-- The answer of one call. -/
def State.move (m : Move) (s : State) : Result :=
  match m with
  | .step => step s
  | .timerTick => .next s.timerTick
  | .setKeys snapshot => .next (s.takeKeys snapshot)
  | .frameBoundary => .next s.frameBoundary

/-- A schedule of the host: any calls in any order and number (60_exceptions.md R250, decision D27; log 17). -/
def runMoves : List Move → State → Result
  | [], s => .next s
  | m :: ms, s =>
    match s.move m with
    | .next t => runMoves ms t
    | .fault f => .fault f
    | .refused r => .refused r

/-- `step()` as the host sees it: the next state, or the halted state that records the fatal error
(60_exceptions.md R231, R236, R251). A step of a halted machine is no step: it stays as it is (40_step_cycle.md R108). -/
def State.hostStep (s : State) : State :=
  match s.halt with
  | some _ => s
  | none =>
    match step s with
    | .next t => t
    | .fault f => s.afterFatal f
    | .refused _ => s

/-! ## What the host reads -/

/-- The 2048 bytes of the display, cell (r, c) at position r*64 + c (60_exceptions.md R246, 10_state.md R30; log 14). -/
def State.displayBytes (s : State) : List Byte := s.disp.toList.flatMap Vector.toList

/-- The tone is on exactly while ST is not 0 (60_exceptions.md R247). Before the first write of ST the host reads 0 and
the tone is off, under `UNINIT_POLICY = fault` too, where the spec leaves that read open (DESIGN CHOICE, log 24). -/
def State.toneOn (s : State) : Bool := s.st != 0x00#8

/-! ## Before the first step -/

/-- The 80 bytes of the font image in memory order: glyph d at 0x50 + 5d (70_reset_and_hazards.md R272). -/
def fontBytes (font : FontImage) : List Byte := font.toList.flatMap Vector.toList

/-- The bootstrap writes the font (70_reset_and_hazards.md R272). -/
def State.bootstrapFont (s : State) : State :=
  s.setMem (s.mem.writeBytes fontBase (fontBytes s.cfg.fontImage))

/-- `load_rom(bytes)` (70_reset_and_hazards.md R273, 60_exceptions.md R233): on failure nothing is written and there is no machine. -/
def State.loadRom (rom : List Byte) (s : State) : Except Fault State :=
  if rom.length + romBase > memSize then .error (.romTooLarge rom.length)
  else .ok (s.setMem (s.mem.writeBytes romBase rom))

/-- Construct, write the font, load the ROM (70_reset_and_hazards.md R274). -/
def boot (cfg : Config) (rom : List Byte) : Except Fault State :=
  (State.construct cfg).bootstrapFont.loadRom rom

end Sys2Proof.Machine
end

