-- ==== Sys2Proof/Safety.lean ====
section
/-! DEFINITION. The terms claims are stated in: what an operation leaves unchanged, the invariant of the machine,
a safe run, what an instruction reads, and where a sprite lands. -/
namespace Sys2Proof.Machine

/-! ## Frames -/

/-- The parts of the state an instruction may write beside the V registers. KeyCur, KeyPrev, Halt and the
configuration are none of them: no instruction writes them (10_state.md R31, R35, R36). -/
inductive Part where
  | i
  | pc
  | stack
  | dt
  | st
  | mem
  | disp
  | execState
  | redraw
  | draws
  deriving DecidableEq, Repr

/-- `t` is `s` but for the named registers and parts. Memory is compared through the read of one byte; an item's
written bit (10_state.md R39) goes with the item. -/
structure SameExcept (regs : List Reg) (parts : List Part) (s t : State) : Prop where
  v : ∀ r, r ∉ regs → t.getV r = s.getV r
  writtenV : ∀ r, r ∉ regs → t.written.has (.v r) = s.written.has (.v r)
  i : Part.i ∉ parts → t.i = s.i ∧ t.written.has .i = s.written.has .i
  dt : Part.dt ∉ parts → t.dt = s.dt ∧ t.written.has .dt = s.written.has .dt
  st : Part.st ∉ parts → t.st = s.st ∧ t.written.has .st = s.written.has .st
  pc : Part.pc ∉ parts → t.pc = s.pc
  stack : Part.stack ∉ parts → t.stack = s.stack
  mem : Part.mem ∉ parts → ∀ a, t.mem.read a = s.mem.read a
  disp : Part.disp ∉ parts → t.disp = s.disp
  execState : Part.execState ∉ parts → t.execState = s.execState
  redraw : Part.redraw ∉ parts → t.redraw = s.redraw
  draws : Part.draws ∉ parts → t.draws = s.draws
  keyCur : t.keyCur = s.keyCur
  keyPrev : t.keyPrev = s.keyPrev
  halt : t.halt = s.halt
  cfg : t.cfg = s.cfg

/-- Every V register an instruction may write, beside the flag: its destination (30_encoding.md R72 for FX65). FX0A
is not here: its register is written by a later wait check (45_timers_keys.md R215). -/
def destinations : Instr → List Reg
  | .ldImm x _ => [x]
  | .addImm x _ => [x]
  | .ldReg x _ => [x]
  | .orReg x _ => [x]
  | .andReg x _ => [x]
  | .xorReg x _ => [x]
  | .addReg x _ => [x]
  | .subReg x _ => [x]
  | .shr x _ => [x]
  | .subn x _ => [x]
  | .shl x _ => [x]
  | .rnd x _ => [x]
  | .ldVxDT x => [x]
  | .ldVxMem x => (List.range (x.toNat + 1)).map (BitVec.ofNat 4)
  | .cls => []
  | .ret => []
  | .sys _ => []
  | .jp _ => []
  | .call _ => []
  | .seImm _ _ => []
  | .sneImm _ _ => []
  | .seReg _ _ => []
  | .sneReg _ _ => []
  | .ldI _ => []
  | .jpV0 _ => []
  | .drw _ _ _ => []
  | .skp _ => []
  | .sknp _ => []
  | .ldVxK _ => []
  | .ldDTVx _ => []
  | .ldSTVx _ => []
  | .addIVx _ => []
  | .ldFVx _ => []
  | .ldBVx _ => []
  | .ldMemVx _ => []

/-- The instructions that write VF as a side effect (10_state.md R22). -/
def writesFlag (cfg : Config) : Instr → Bool
  | .orReg _ _ => cfg.qVfReset
  | .andReg _ _ => cfg.qVfReset
  | .xorReg _ _ => cfg.qVfReset
  | .addReg _ _ => true
  | .subReg _ _ => true
  | .subn _ _ => true
  | .shr _ _ => true
  | .shl _ _ => true
  | .drw _ _ _ => true
  | .cls => false
  | .ret => false
  | .sys _ => false
  | .jp _ => false
  | .call _ => false
  | .seImm _ _ => false
  | .sneImm _ _ => false
  | .seReg _ _ => false
  | .ldImm _ _ => false
  | .addImm _ _ => false
  | .ldReg _ _ => false
  | .sneReg _ _ => false
  | .ldI _ => false
  | .jpV0 _ => false
  | .rnd _ _ => false
  | .skp _ => false
  | .sknp _ => false
  | .ldVxDT _ => false
  | .ldVxK _ => false
  | .ldDTVx _ => false
  | .ldSTVx _ => false
  | .addIVx _ => false
  | .ldFVx _ => false
  | .ldBVx _ => false
  | .ldMemVx _ => false
  | .ldVxMem _ => false

/-- The items an instruction reads, in the order of its pseudocode (10_state.md R39, 60_exceptions.md R235): a
stalled draw reads none, a draw of no rows does not read I. -/
def itemsRead (s : State) : Instr → List Item
  | .seImm x _ => [.v x]
  | .sneImm x _ => [.v x]
  | .seReg x y => [.v x, .v y]
  | .sneReg x y => [.v x, .v y]
  | .jpV0 _ => [.v 0x0#4]
  | .addImm x _ => [.v x]
  | .ldReg _ y => [.v y]
  | .orReg x y => [.v x, .v y]
  | .andReg x y => [.v x, .v y]
  | .xorReg x y => [.v x, .v y]
  | .addReg x y => [.v x, .v y]
  | .subReg x y => [.v x, .v y]
  | .subn x y => [.v y, .v x]
  | .shr x y => [.v (shiftSource x y s)]
  | .shl x y => [.v (shiftSource x y s)]
  | .addIVx x => [.i, .v x]
  | .ldFVx x => [.v x]
  | .ldBVx x => [.v x, .i]
  | .ldMemVx x => .i :: (List.range (x.toNat + 1)).map (fun k => .v (BitVec.ofNat 4 k))
  | .ldVxMem _ => [.i]
  | .drw x y n => if s.drawStalls then [] else if n = 0#4 then [.v x, .v y] else [.v x, .v y, .i]
  | .skp x => [.v x]
  | .sknp x => [.v x]
  | .ldVxDT _ => [.dt]
  | .ldDTVx x => [.v x]
  | .ldSTVx x => [.v x]
  | .cls => []
  | .ret => []
  | .sys _ => []
  | .jp _ => []
  | .call _ => []
  | .ldImm _ _ => []
  | .ldI _ => []
  | .rnd _ _ => []
  | .ldVxK _ => []

/-- Every item the instruction reads may be read: always so under `UNINIT_POLICY = zero` (10_state.md R39). -/
abbrev OperandsReadable (i : Instr) (s : State) : Prop := ∀ item ∈ itemsRead s i, s.readable item = true

/-- The items an instruction writes when it answers (10_state.md R39: "set by every write to that item"). FX0A is not
here: its register is written by a later wait check. -/
def itemsWritten (s : State) : Instr → List Item
  | .ldImm x _ => [.v x]
  | .addImm x _ => [.v x]
  | .ldReg x _ => [.v x]
  | .orReg x _ => if s.cfg.qVfReset then [.v x, .v 0xF#4] else [.v x]
  | .andReg x _ => if s.cfg.qVfReset then [.v x, .v 0xF#4] else [.v x]
  | .xorReg x _ => if s.cfg.qVfReset then [.v x, .v 0xF#4] else [.v x]
  | .addReg x _ => [.v x, .v 0xF#4]
  | .subReg x _ => [.v x, .v 0xF#4]
  | .subn x _ => [.v x, .v 0xF#4]
  | .shr x _ => [.v x, .v 0xF#4]
  | .shl x _ => [.v x, .v 0xF#4]
  | .rnd x _ => [.v x]
  | .drw _ _ _ => if s.drawStalls then [] else [.v 0xF#4]
  | .ldI _ => [.i]
  | .addIVx _ => [.i]
  | .ldFVx _ => [.i]
  | .ldMemVx _ => if s.cfg.qIndexIncrement then [.i] else []
  | .ldVxMem x => (destinations (.ldVxMem x)).map .v ++ (if s.cfg.qIndexIncrement then [.i] else [])
  | .ldVxDT x => [.v x]
  | .ldDTVx _ => [.dt]
  | .ldSTVx _ => [.st]
  | .cls => []
  | .ret => []
  | .sys _ => []
  | .jp _ => []
  | .call _ => []
  | .seImm _ _ => []
  | .sneImm _ _ => []
  | .seReg _ _ => []
  | .sneReg _ _ => []
  | .jpV0 _ => []
  | .skp _ => []
  | .sknp _ => []
  | .ldVxK _ => []
  | .ldBVx _ => []

/-- The instruction completes: it answers a next state that is `s` but for the named registers and parts, and of
which `Q` holds. -/
def Completes (i : Instr) (s : State) (regs : List Reg) (parts : List Part) (Q : State → Prop) : Prop :=
  ∃ t, exec i s = .next t ∧ SameExcept regs parts s t ∧ Q t

/-! ## The invariant -/

/-- What holds of the machine right after construction and after every step and host operation. -/
structure Inv (s : State) : Prop where
  /-- Memory is in its canonical form, within the 4096 bytes of 20_memory.md R50. -/
  mem : s.mem.wf = true
  /-- Every cell of the display holds 0 or 255 (10_state.md R30). -/
  disp : s.disp.wf = true
  /-- The call stack has at most 16 entries (10_state.md R25). -/
  depth : s.stack.length ≤ stackDepth
  /-- Every return address is a CALL's address + 2, so it is at most 0x1000 (41_control_flow.md R121, 40_step_cycle.md R101). -/
  returns : ∀ a ∈ s.stack, a.toNat ≤ 0x1000
  /-- PC is at most 0x10FE: the greatest target of the indexed jump (41_control_flow.md R129). -/
  pc : s.pc.toNat ≤ 0x10FE
  /-- Between the press and the release the target register holds the key's number (40_step_cycle.md R105). -/
  waiting : ∀ r k, s.execState = .awaitingKey r (.waitingForRelease k) → s.getV r = k.setWidth 8

/-! ## Runs -/

/-- The host's schedule meets no fatal error: every call of it is answered. -/
def SafeRun (moves : List Move) (s : State) : Prop := ∃ t, runMoves moves s = .next t

/-! ## Sprites, pixel by pixel -/

/-- Row r of a sprite lands on display row `row` (44_display_random.md R192, R195). -/
def rowLandsOn (clip : Bool) (y0 r : Nat) (row : Fin 32) : Prop :=
  if y0 + r < 32 then y0 + r = row.val else clip = false ∧ (y0 + r) % 32 = row.val

/-- Some 1 bit of an n-row sprite with rows `bits` lands on the cell (44_display_random.md R192). -/
def spriteCovers (clip : Bool) (x0 y0 n : Nat) (bits : Nat → Byte) (row : Fin 32) (col : Fin 64) : Prop :=
  ∃ r < n, ∃ c < 8, rowLandsOn clip y0 r row ∧ (x0 + c) % 64 = col.val ∧ (bits r).getLsbD (7 - c) = true

end Sys2Proof.Machine
end

