-- ==== Sys2Proof/Certificates/Slice0/Obligations.lean ====
section
/-! DEFINITION. The statements for the provers. A statement about a state holds of every state, whatever its
configuration: the quirk flags and policies of 00_scope.md R8 and R9 are read from `cfg`. `OperandsReadable` is no
restriction under the default `UNINIT_POLICY = zero`. -/

open Sys2Proof Sys2Proof.Machine

/-! ## The step -/

/-- 40_step_cycle.md R100: the three cases of `step()`, in order. -/
def Obligations.StepFollowsItsContract : Prop :=
  ∀ s : State,
    (s.halt ≠ none → ∀ t, step s ≠ .next t) ∧
    (s.halt = none → s.execState = .running → ∀ op i, memReadWord s.pc.toNat s = .ok op →
      decode op = .instr i → step s = exec i (s.setPC (s.pc + 2))) ∧
    (s.halt = none → ∀ r p, s.execState = .awaitingKey r p → step s = .next (waitCheck r p s))

/-- 40_step_cycle.md R101, R103: the fatal errors of the fetch and the decoder. The addresses recorded are the
spec's decisions D8 and D18 (92_eei_decisions.md). -/
def Obligations.FetchAndDecodeErrorsStop : Prop :=
  ∀ s : State, s.halt = none → s.execState = .running →
    (∀ op, s.pc.toNat ≤ 0xFFE → memReadWord s.pc.toNat s = .ok op → decode op = .unknown op →
      step s = .fault (.unknownOpcode op s.pc)) ∧
    (s.pc.toNat = 0xFFF → step s = .fault (.memoryOutOfRange 0x1000)) ∧
    (0x1000 ≤ s.pc.toNat → step s = .fault (.memoryOutOfRange s.pc.toNat))

/-- 60_exceptions.md R231 and R236, 10_state.md R34: a fatal error is recorded in Halt and no step follows; the
configuration stays that of the run (R36). How the halted state is represented is the model's reading (log 3; the
spec's decision D18). -/
def Obligations.FatalErrorHaltsForGood : Prop :=
  ∀ s : State, s.halt = none →
    (∀ t, step s = .next t → s.hostStep = t) ∧
    ∀ f, step s = .fault f →
      s.hostStep.halt = some f ∧ s.hostStep.cfg = s.cfg ∧ s.hostStep.hostStep = s.hostStep ∧ ∀ t, step s.hostStep ≠ .next t

/-! ## Decoding (30_encoding.md; its patterns are general knowledge, decision D1, log 7) -/

/-- Words written out from the table of 30_encoding.md R74, one or more of each family. -/
def Obligations.TableWordsDecode : Prop :=
  decode 0x00E0#16 = .instr .cls ∧ decode 0x00E1#16 = .instr (.sys 0x0E1) ∧
  decode 0x2300#16 = .instr (.call 0x300) ∧ decode 0x5120#16 = .instr (.seReg 0x1 0x2) ∧
  decode 0x6102#16 = .instr (.ldImm 0x1 0x02) ∧ decode 0x8127#16 = .instr (.subn 0x1 0x2) ∧
  decode 0x812E#16 = .instr (.shl 0x1 0x2) ∧ decode 0xA300#16 = .instr (.ldI 0x300) ∧
  decode 0xC30F#16 = .instr (.rnd 0x3 0x0F) ∧ decode 0xD123#16 = .instr (.drw 0x1 0x2 0x3) ∧
  decode 0xE19E#16 = .instr (.skp 0x1) ∧ decode 0xF30A#16 = .instr (.ldVxK 0x3) ∧
  decode 0xFF65#16 = .instr (.ldVxMem 0xF) ∧ decode 0x5121#16 = .unknown 0x5121 ∧
  decode 0x8008#16 = .unknown 0x8008 ∧ decode 0xF000#16 = .unknown 0xF000

/-- Every well-formed instruction, with every operand value its row admits, is read back from its word. -/
def Obligations.DecodeOfEncode : Prop :=
  ∀ i : Instr, i.wellFormed = true → decode (encode i) = .instr i

/-- Every word that decodes is the word of the well-formed instruction it decodes to. -/
def Obligations.EncodeOfDecode : Prop :=
  ∀ (op : Word) (i : Instr), decode op = .instr i → i.wellFormed = true ∧ encode i = op

/-- 30_encoding.md R74 to R77: a word is unknown exactly when it matches no row of the table (decision D3). -/
def Obligations.UnknownExactlyWhenNoRowMatches : Prop :=
  ∀ op : Word, (decode op = .unknown op ↔ ∀ row ∈ opcodeRows, matchesRow op row = false) ∧
    (∀ w, decode op = .unknown w → w = op) ∧ (∀ i, decode op = .instr i → matchesRow op (opcodeRow i) = true)

/-- 30_encoding.md R75: apart from 00E0 and 00EE against 0NNN, no two rows match the same word. -/
def Obligations.RowsAreDisjoint : Prop :=
  opcodeRows.Pairwise fun a b => ∀ op : Word, matchesRow op a = true → matchesRow op b = true →
    (op = 0x00E0#16 ∨ op = 0x00EE#16) ∧ b = (0xF000#16, 0x0000#16)

/-! ## Memory -/

/-- 20_memory.md R52 and R53: a byte access succeeds exactly below 4096, a read has no side effect, and a read sees
the last write to its address and no other. -/
def Obligations.ByteAccesses : Prop :=
  ∀ (a : Nat) (b : Byte) (s : State),
    (a < 4096 → memRead a s = .ok (s.mem.read a) ∧
      ∃ t, memWrite a b s = .ok t ∧ SameExcept [] [.mem] s t ∧
        ∀ a', t.mem.read a' = if a' = a then b else s.mem.read a') ∧
    (4096 ≤ a → memRead a s = .error (.memoryOutOfRange a) ∧ memWrite a b s = .error (.memoryOutOfRange a))

/-- 20_memory.md R54: the word read, high byte at the lower address. -/
def Obligations.WordReadIsBigEndian : Prop :=
  ∀ (a : Nat) (s : State),
    (a ≤ 0xFFE → ∃ w, memReadWord a s = .ok w ∧
      w.toNat = 256 * (s.mem.read a).toNat + (s.mem.read (a + 1)).toNat) ∧
    (a = 0xFFF → memReadWord a s = .error (.memoryOutOfRange 0x1000)) ∧
    (0x1000 ≤ a → memReadWord a s = .error (.memoryOutOfRange a)) ∧
    (s.mem.read 0x200 = 0x61#8 → s.mem.read 0x201 = 0x02#8 → memReadWord 0x200 s = .ok 0x6102#16)

/-- The canonical form of the model's memory: memories that read alike are the same data (the model's own
representation of 20_memory.md R50). -/
def Obligations.MemoriesThatReadAlikeAreEqual : Prop :=
  ∀ m m' : Memory, m.wf = true → m'.wf = true → (∀ a, m.read a = m'.read a) → m = m'

/-! ## Control flow (41_control_flow.md) -/

/-- 0NNN per `SYS_POLICY` (the spec's decision D2; log 23): under `nop` it completes and changes nothing, under
`fatal` it stops with its word and address. -/
def Obligations.SysFollowsItsPolicy : Prop :=
  ∀ (nnn : Addr) (s : State),
    (s.cfg.sysPolicy = .nop → exec (.sys nnn) s = .next s) ∧
    (s.cfg.sysPolicy = .fatal → ∃ op : Word, op.toNat = nnn.toNat ∧
      exec (.sys nnn) s = .fault (.sysUnmodelled op (s.pc - 2)))

/-- 41_control_flow.md R121: RET goes to the popped address, used as is, and fails on an empty stack; after a CALL
it restores the state right after the CALL was fetched. -/
def Obligations.ReturnPops : Prop :=
  ∀ s : State,
    (∀ l a, s.stack = l ++ [a] →
      Completes .ret s [] [.pc, .stack] fun t => t.pc = a ∧ t.stack = l) ∧
    (s.stack = [] → ∃ a, exec .ret s = .fault (.stackUnderflow a)) ∧
    (∀ nnn t, exec (.call nnn) s = .next t → exec .ret t = .next s)

/-- 41_control_flow.md R122: JP goes to nnn; a target of 0xFFF makes the next fetch fail; a jump to its own address
repeats: the step answers the same state. -/
def Obligations.JumpGoesToItsTarget : Prop :=
  ∀ (nnn : Addr) (s : State),
    (Completes (.jp nnn) s [] [.pc] fun t => t.pc.toNat = nnn.toNat ∧
      (nnn = 0xFFF#12 → fetch t = .error (.memoryOutOfRange 0x1000))) ∧
    (s.halt = none → s.execState = .running → ∀ op, memReadWord s.pc.toNat s = .ok op →
      decode op = .instr (.jp nnn) → s.pc.toNat = nnn.toNat → step s = .next s)

/-- 41_control_flow.md R123: CALL pushes the address after itself and goes to nnn; on a stack of 16 it fails. -/
def Obligations.CallPushesItsReturnAddress : Prop :=
  ∀ (nnn : Addr) (s : State),
    (s.stack.length < 16 → Completes (.call nnn) s [] [.pc, .stack] fun t =>
      t.pc.toNat = nnn.toNat ∧ t.stack = s.stack ++ [s.pc]) ∧
    (s.stack.length = 16 → ∃ a, exec (.call nnn) s = .fault (.stackOverflow a))

/-- The address a stack error records is that of the CALL or RET (60_exceptions.md R232), DEDUCED against the PC of
10_state.md R27 and R28 (log 4; the spec's decision D18). -/
def Obligations.StackErrorsRecordTheInstruction : Prop :=
  ∀ (nnn : Addr) (s : State),
    (16 ≤ s.stack.length → exec (.call nnn) s = .fault (.stackOverflow (s.pc - 2))) ∧
    (s.stack = [] → exec .ret s = .fault (.stackUnderflow (s.pc - 2)))

/-- 41_control_flow.md R124 to R127: a skip adds 2 to PC when its comparison holds, and writes nothing else. -/
def Obligations.RegisterSkips : Prop :=
  ∀ (x y : Reg) (kk : Byte) (s : State),
    (OperandsReadable (.seImm x kk) s → Completes (.seImm x kk) s [] [.pc] fun t =>
      t.pc = if s.getV x = kk then s.pc + 2 else s.pc) ∧
    (OperandsReadable (.sneImm x kk) s → Completes (.sneImm x kk) s [] [.pc] fun t =>
      t.pc = if s.getV x ≠ kk then s.pc + 2 else s.pc) ∧
    (OperandsReadable (.seReg x y) s → Completes (.seReg x y) s [] [.pc] fun t =>
      t.pc = if s.getV x = s.getV y then s.pc + 2 else s.pc) ∧
    (OperandsReadable (.sneReg x y) s → Completes (.sneReg x y) s [] [.pc] fun t =>
      t.pc = if s.getV x ≠ s.getV y then s.pc + 2 else s.pc)

/-- JP V0 goes to nnn + V0, not reduced modulo 0x1000 (the spec's decision D9; log 11). -/
def Obligations.IndexedJumpAddsV0 : Prop :=
  ∀ (nnn : Addr) (s : State), OperandsReadable (.jpV0 nnn) s →
    Completes (.jpV0 nnn) s [] [.pc] fun t => t.pc.toNat = nnn.toNat + (s.getV 0x0#4).toNat

/-! ## Registers and arithmetic (42_register_alu.md) -/

/-- 42_register_alu.md R140: LD Vx, kk. -/
def Obligations.LoadImmediate : Prop :=
  ∀ (x : Reg) (kk : Byte) (s : State), Completes (.ldImm x kk) s [x] [] fun t => t.getV x = kk

/-- ADD Vx, kk wraps modulo 256 and sets no carry, LD Vx, Vy copies and clears no flag (the spec's decisions D6 and
D7; log 10): VF is among the unchanged registers unless x = 0xF. -/
def Obligations.AddImmediateAndCopyLeaveTheFlag : Prop :=
  ∀ (x y : Reg) (kk : Byte) (s : State),
    (OperandsReadable (.addImm x kk) s → Completes (.addImm x kk) s [x] [] fun t =>
      (t.getV x).toNat = ((s.getV x).toNat + kk.toNat) % 256) ∧
    (OperandsReadable (.ldReg x y) s → Completes (.ldReg x y) s [x] [] fun t => t.getV x = s.getV y)

/-- OR, AND and XOR: the bitwise result, and VF cleared as the last write under `Q_VF_RESET` (order: the spec's
decision D5; log 9). -/
def Obligations.LogicOperations : Prop :=
  ∀ (x y : Reg) (s : State),
    let written : List Reg := if s.cfg.qVfReset then [x, 0xF#4] else [x]
    let result (f : Bool → Bool → Bool) (t : State) : Prop :=
      (s.cfg.qVfReset = true → t.getV 0xF#4 = 0x00#8) ∧
      ((x ≠ 0xF#4 ∨ s.cfg.qVfReset = false) →
        ∀ k < 8, (t.getV x).getLsbD k = f ((s.getV x).getLsbD k) ((s.getV y).getLsbD k))
    (OperandsReadable (.orReg x y) s → Completes (.orReg x y) s written [] (result fun a b => a || b)) ∧
    (OperandsReadable (.andReg x y) s → Completes (.andReg x y) s written [] (result fun a b => a && b)) ∧
    (OperandsReadable (.xorReg x y) s → Completes (.xorReg x y) s written [] (result fun a b => a != b))

/-- ADD Vx, Vy: result and carry together are the exact sum; x = 0xF ends with the carry (decision D5; log 9). -/
def Obligations.AddSetsCarry : Prop :=
  ∀ (x y : Reg) (s : State), OperandsReadable (.addReg x y) s →
    Completes (.addReg x y) s [x, 0xF#4] [] fun t =>
      (t.getV 0xF#4 = if (s.getV x).toNat + (s.getV y).toNat > 255 then 0x01#8 else 0x00#8) ∧
      (x ≠ 0xF#4 → (t.getV x).toNat + 256 * (t.getV 0xF#4).toNat = (s.getV x).toNat + (s.getV y).toNat)

/-- SUB and SUBN: the difference modulo 256, VF = 1 exactly when the minuend is strictly greater; x = 0xF ends with
the flag (decision D5; log 9). -/
def Obligations.SubtractSetsNoBorrow : Prop :=
  ∀ (x y : Reg) (s : State),
    let result (minuend subtrahend : Nat) (t : State) : Prop :=
      (t.getV 0xF#4 = if minuend > subtrahend then 0x01#8 else 0x00#8) ∧
      (x ≠ 0xF#4 → ((t.getV x).toNat + subtrahend) % 256 = minuend)
    (OperandsReadable (.subReg x y) s →
      Completes (.subReg x y) s [x, 0xF#4] [] (result (s.getV x).toNat (s.getV y).toNat)) ∧
    (OperandsReadable (.subn x y) s →
      Completes (.subn x y) s [x, 0xF#4] [] (result (s.getV y).toNat (s.getV x).toNat))

/-- SHR and SHL: by one bit, of Vy or Vx as `Q_SHIFT_SRC_VY` says, the bit shifted out in VF; x = 0xF ends with that
bit (decision D5; log 9). -/
def Obligations.ShiftsMoveOneBit : Prop :=
  ∀ (x y : Reg) (s : State),
    let source : Nat := (s.getV (if s.cfg.qShiftSrcVy then y else x)).toNat
    (OperandsReadable (.shr x y) s → Completes (.shr x y) s [x, 0xF#4] [] fun t =>
      (t.getV 0xF#4).toNat = source % 2 ∧ (x ≠ 0xF#4 → (t.getV x).toNat = source / 2)) ∧
    (OperandsReadable (.shl x y) s → Completes (.shl x y) s [x, 0xF#4] [] fun t =>
      (t.getV 0xF#4).toNat = source / 128 ∧ (x ≠ 0xF#4 → (t.getV x).toNat = 2 * source % 256))

/-- 10_state.md R22: a V register changes only as the destination of its instruction, VF also as the flag of the
instructions that write it as a side effect; 7XKK, 8XY0 and FX1E are none of those (decisions D6 and D7; log 10). -/
def Obligations.RegistersChangeOnlyAsNamed : Prop :=
  ∀ (i : Instr) (s t : State) (r : Reg), exec i s = .next t → r ∉ destinations i →
    (r = 0xF#4 → writesFlag s.cfg i = false) → t.getV r = s.getV r

/-- 42_register_alu.md R151: every flag written to VF is 0x00 or 0x01, also when VF is the destination (decision D5). -/
def Obligations.FlagsAreZeroOrOne : Prop :=
  ∀ (i : Instr) (s t : State), exec i s = .next t → writesFlag s.cfg i = true →
    (∀ x y n, i = .drw x y n → s.drawStalls = false) → t.getV 0xF#4 = 0x00#8 ∨ t.getV 0xF#4 = 0x01#8

/-! ## Memory and index (43_memory_index.md) -/

/-- 43_memory_index.md R170: LD I, nnn. -/
def Obligations.LoadIndex : Prop :=
  ∀ (nnn : Addr) (s : State), Completes (.ldI nnn) s [] [.i] fun t => t.i.toNat = nnn.toNat

/-- ADD I, Vx is modulo 2^16 with no flag (decision D9; log 11); LD F, Vx uses the full byte (decision D11; log 12). -/
def Obligations.IndexArithmetic : Prop :=
  ∀ (x : Reg) (s : State),
    (OperandsReadable (.addIVx x) s → Completes (.addIVx x) s [] [.i] fun t =>
      t.i.toNat = (s.i.toNat + (s.getV x).toNat) % 65536) ∧
    (OperandsReadable (.ldFVx x) s → Completes (.ldFVx x) s [] [.i] fun t =>
      t.i.toNat = 0x50 + 5 * (s.getV x).toNat)

/-- LD B, Vx: three digits at I, I + 1, I + 2 (`dataAddress`), every other byte as before, I unchanged; the
addresses are not reduced (decision D8; log 11). -/
def Obligations.DecimalDigitsAreStored : Prop :=
  ∀ (x : Reg) (s : State), OperandsReadable (.ldBVx x) s → dataAddress s.i 2 < 4096 →
    Completes (.ldBVx x) s [] [.mem] fun t =>
      let digit (k : Nat) : Nat := (t.mem.read (dataAddress s.i k)).toNat
      (s.getV x).toNat = 100 * digit 0 + 10 * digit 1 + digit 2 ∧ (∀ k < 3, digit k ≤ 9) ∧
      ∀ a, (∀ k < 3, a ≠ dataAddress s.i k) → t.mem.read a = s.mem.read a

/-- LD [I], Vx: register k at I + k (`dataAddress`) for k = 0 to x, every other byte as before, I advanced by x + 1
under `Q_INDEX_INCREMENT`; the addresses are not reduced (decision D8; log 11). -/
def Obligations.BulkStore : Prop :=
  ∀ (x : Reg) (s : State), OperandsReadable (.ldMemVx x) s → dataAddress s.i x.toNat < 4096 →
    Completes (.ldMemVx x) s [] (if s.cfg.qIndexIncrement then [.mem, .i] else [.mem]) fun t =>
      (∀ r : Reg, r.toNat ≤ x.toNat → t.mem.read (dataAddress s.i r.toNat) = s.getV r) ∧
      (∀ a, (∀ k ≤ x.toNat, a ≠ dataAddress s.i k) → t.mem.read a = s.mem.read a) ∧
      (s.cfg.qIndexIncrement = true → t.i.toNat = s.i.toNat + x.toNat + 1)

/-- LD Vx, [I]: register k from I + k (`dataAddress`) for k = 0 to x, no other register, I advanced by x + 1 under
`Q_INDEX_INCREMENT`; the addresses are not reduced (decision D8; log 11). -/
def Obligations.BulkLoad : Prop :=
  ∀ (x : Reg) (s : State), OperandsReadable (.ldVxMem x) s → dataAddress s.i x.toNat < 4096 →
    Completes (.ldVxMem x) s (destinations (.ldVxMem x))
      (if s.cfg.qIndexIncrement then [.i] else []) fun t =>
      (∀ r : Reg, r.toNat ≤ x.toNat → t.getV r = s.mem.read (dataAddress s.i r.toNat)) ∧
      (∀ r : Reg, x.toNat < r.toNat → t.getV r = s.getV r) ∧
      (s.cfg.qIndexIncrement = true → t.i.toNat = s.i.toNat + x.toNat + 1)

/-- FX33, FX55 and FX65 stop when their last address is 0x1000 or more, with the first address that is (20_memory.md
R56, 60_exceptions.md R235; decisions D8 and D30; log 11). -/
def Obligations.DataAddressesBeyondMemoryStop : Prop :=
  ∀ (x : Reg) (s : State),
    let beyond : Result := .fault (.memoryOutOfRange (max s.i.toNat 0x1000))
    (OperandsReadable (.ldBVx x) s → 4096 ≤ dataAddress s.i 2 → exec (.ldBVx x) s = beyond) ∧
    (OperandsReadable (.ldMemVx x) s → 4096 ≤ dataAddress s.i x.toNat → exec (.ldMemVx x) s = beyond) ∧
    (OperandsReadable (.ldVxMem x) s → 4096 ≤ dataAddress s.i x.toNat → exec (.ldVxMem x) s = beyond)

/-- A bulk store and then a bulk load from the same I give every register its value back (43_memory_index.md R174, R175). -/
def Obligations.BulkLoadUndoesBulkStore : Prop :=
  ∀ (x : Reg) (s t u : State), exec (.ldMemVx x) s = .next t →
    exec (.ldVxMem x) { t with i := s.i } = .next u → ∀ r, u.getV r = s.getV r

/-- 20_memory.md R66: what FX55 stored is fetched and executed by the next step at its address. -/
def Obligations.StoredWordIsFetched : Prop :=
  ∀ (x : Reg) (i : Instr) (s t : State), exec (.ldMemVx x) s = .next t → 1 ≤ x.toNat →
    s.halt = none → s.execState = .running →
    decode (wordOfBytes (s.getV 0x0#4) (s.getV 0x1#4)) = .instr i →
    step (t.setPC s.i) = exec i (t.setPC (s.i + 2))

/-! ## Display and random (44_display_random.md) -/

/-- CLS turns every cell off; Redraw and VF stay (the spec's decision D15; log 15). -/
def Obligations.ClearTurnsEveryCellOff : Prop :=
  ∀ s : State, Completes .cls s [] [.disp] fun t => ∀ row col, t.disp.cell row col = 0#8

/-- DRW, when the throttle does not hold it back, flips each cell the sprite covers once and no other, horizontal
wrap and vertical clip or wrap included, writes the collision to VF and sets Redraw (bit and cell order: decision
D14; log 14; zero rows: decision D13; log 13; VF last: decision D5). -/
def Obligations.DrawFlipsExactlyTheCoveredCells : Prop :=
  ∀ (x y : Reg) (n : Nibble) (s : State), OperandsReadable (.drw x y n) s →
    (s.cfg.qDrawThrottle = false ∨ s.redraw = false) →
    Completes (.drw x y n) s [0xF#4] [.disp, .redraw] fun t =>
      let covers := spriteCovers s.cfg.qDrawClip ((s.getV x).toNat % 64) ((s.getV y).toNat % 32) n.toNat
        (fun r => s.mem.read ((s.i.toNat + r) % 4096))
      (∀ row col, covers row col →
        t.disp.cell row col = if s.disp.cell row col = 255#8 then 0#8 else 255#8) ∧
      (∀ row col, ¬covers row col → t.disp.cell row col = s.disp.cell row col) ∧
      ((∃ row col, covers row col ∧ s.disp.cell row col = 255#8) → t.getV 0xF#4 = 0x01#8) ∧
      ((∀ row col, covers row col → s.disp.cell row col ≠ 255#8) → t.getV 0xF#4 = 0x00#8) ∧
      t.redraw = true

/-- 44_display_random.md R194: VF after an executed draw tells whether some cell went from 255 to 0. -/
def Obligations.CollisionMeansACellWentOff : Prop :=
  ∀ (x y : Reg) (n : Nibble) (s t : State), exec (.drw x y n) s = .next t →
    (s.cfg.qDrawThrottle = false ∨ s.redraw = false) →
    (t.getV 0xF#4 = 0x01#8 ↔ ∃ row col, s.disp.cell row col = 255#8 ∧ t.disp.cell row col = 0#8) ∧
    (t.getV 0xF#4 = 0x01#8 ∨ t.getV 0xF#4 = 0x00#8)

/-- The same draw in the next frame undoes the first, on a display whose cells are on or off (44_display_random.md
R192, R194); with x or y = 0xF the second draw has other coordinates. -/
def Obligations.DrawingTwiceRestoresTheDisplay : Prop :=
  ∀ (x y : Reg) (n : Nibble) (s t u : State), x ≠ 0xF#4 → y ≠ 0xF#4 → s.disp.wf = true → s.redraw = false →
    exec (.drw x y n) s = .next t → exec (.drw x y n) t.frameBoundary = .next u → u.disp = s.disp

/-- 44_display_random.md R193: a throttled draw changes PC alone, back to its own address, so a step at it leaves
the whole state as it is, until the host's FrameBoundary (the spec's decision D26; log 15). -/
def Obligations.ThrottledDrawStalls : Prop :=
  ∀ (x y : Reg) (n : Nibble) (s : State), s.cfg.qDrawThrottle = true → s.redraw = true →
    exec (.drw x y n) s = .next (s.setPC (s.pc - 2)) ∧
    (s.halt = none → s.execState = .running → ∀ op, memReadWord s.pc.toNat s = .ok op →
      decode op = .instr (.drw x y n) → step s = .next s)

/-- RND: the drawn byte, a free value, masked by kk; one byte is drawn (the spec's decision D19; log 6). -/
def Obligations.RandomByteIsMasked : Prop :=
  ∀ (x : Reg) (kk : Byte) (s : State), Completes (.rnd x kk) s [x] [.draws] fun t =>
    t.getV x = Config.randomByte s.draws &&& kk ∧ t.getV x &&& ~~~kk = 0x00#8 ∧ t.draws = s.draws + 1

/-! ## Timers and keys (45_timers_keys.md) -/

/-- 45_timers_keys.md R210 to R212: the timer transfers; the tone is on exactly while ST is not 0. -/
def Obligations.TimerTransfers : Prop :=
  ∀ (x : Reg) (s : State),
    (OperandsReadable (.ldVxDT x) s → Completes (.ldVxDT x) s [x] [] fun t => t.getV x = s.dt) ∧
    (OperandsReadable (.ldDTVx x) s → Completes (.ldDTVx x) s [] [.dt] fun t => t.dt = s.getV x) ∧
    (OperandsReadable (.ldSTVx x) s → Completes (.ldSTVx x) s [] [.st] fun t =>
      t.st = s.getV x ∧ (t.toneOn = true ↔ s.getV x ≠ 0x00#8))

/-- SKP and SKNP: the key is V[x], or its low nibble under `KEY_INDEX_POLICY = low_nibble`; above 0xF under `fault`
they stop (the spec's decision D12; log 23). -/
def Obligations.KeySkips : Prop :=
  ∀ (x : Reg) (s : State),
    ((s.getV x).toNat ≤ 0xF ∨ s.cfg.keyIndexPolicy = .lowNibble →
      (OperandsReadable (.skp x) s → Completes (.skp x) s [] [.pc] fun t =>
        t.pc = if s.pressed (BitVec.ofNat 4 (s.getV x).toNat) then s.pc + 2 else s.pc) ∧
      (OperandsReadable (.sknp x) s → Completes (.sknp x) s [] [.pc] fun t =>
        t.pc = if s.pressed (BitVec.ofNat 4 (s.getV x).toNat) then s.pc else s.pc + 2)) ∧
    (0xF < (s.getV x).toNat → s.cfg.keyIndexPolicy = .fault →
      (OperandsReadable (.skp x) s → exec (.skp x) s = .fault (.keyIndexOutOfRange (s.getV x))) ∧
      (OperandsReadable (.sknp x) s → exec (.sknp x) s = .fault (.keyIndexOutOfRange (s.getV x))))

/-- FX0A begins the wait and looks at no key (the spec's decision D16; log 16). -/
def Obligations.KeyWaitBegins : Prop :=
  ∀ (x : Reg) (s : State), Completes (.ldVxK x) s [] [.execState] fun t =>
    t.execState = .awaitingKey x .waitingForPress

/-- 40_step_cycle.md R104, R106: one transition at most, on the lowest key with a press edge, or on the release of
the accepted key (the spec's decision D16; log 16); nothing changes but V[r] and Exec. -/
def Obligations.WaitCheckTransitions : Prop :=
  ∀ (r : Reg) (s : State), s.halt = none →
    (s.execState = .awaitingKey r .waitingForPress →
      (∀ k : Key, s.wasPressed k = false → s.pressed k = true →
        (∀ j : Key, j.toNat < k.toNat → s.wasPressed j = true ∨ s.pressed j = false) →
        ∃ t, step s = .next t ∧ SameExcept [r] [.execState] s t ∧ (t.getV r).toNat = k.toNat ∧
          t.execState = .awaitingKey r (.waitingForRelease k)) ∧
      ((∀ k, s.wasPressed k = true ∨ s.pressed k = false) → step s = .next s)) ∧
    (∀ k, s.execState = .awaitingKey r (.waitingForRelease k) →
      (s.pressed k = true → step s = .next s) ∧
      (s.pressed k = false → ∃ t, step s = .next t ∧ SameExcept [] [.execState] s t ∧ t.execState = .running))

/-- 40_step_cycle.md R107: a key going off, on, off across three frames ends the wait, with its number in the target
register from the press on, and Running only after the release. -/
def Obligations.KeyWaitTakesPressAndRelease : Prop :=
  ∀ (r : Reg) (k : Key) (s : State), s.halt = none → s.execState = .awaitingKey r .waitingForPress →
    let off : Keys := Vector.replicate 16 false
    let on : Keys := off.set k.toNat true
    ∃ t u v,
      runMoves [.setKeys off, .step] s = .next t ∧ t.execState = .awaitingKey r .waitingForPress ∧
      runMoves [.setKeys on, .step] t = .next u ∧ u.getV r = k.setWidth 8 ∧
      u.execState = .awaitingKey r (.waitingForRelease k) ∧
      runMoves [.setKeys off, .step] u = .next v ∧ v.getV r = k.setWidth 8 ∧ v.execState = .running

/-- 10_state.md R29: no instruction reads ST; states that differ in ST alone run alike. -/
def Obligations.SoundTimerIsNeverRead : Prop :=
  ∀ (i : Instr) (s : State) (b : Byte),
    (∀ t, exec i s = .next t → ∃ b', exec i { s with st := b } = .next { t with st := b' }) ∧
    (∀ f, exec i s = .fault f → exec i { s with st := b } = .fault f)

/-- 10_state.md R31 and R38: instructions read KeyCur only; KeyPrev is seen by the wait check alone. -/
def Obligations.PreviousKeysAreReadByTheWaitOnly : Prop :=
  ∀ (i : Instr) (s : State) (p : Keys),
    (∀ t, exec i s = .next t → exec i { s with keyPrev := p } = .next { t with keyPrev := p }) ∧
    (∀ f, exec i s = .fault f → exec i { s with keyPrev := p } = .fault f)

/-! ## Whole-machine rules -/

/-- 20_memory.md R58, R61: only FX33 and FX55 change memory. -/
def Obligations.OnlyStoresChangeMemory : Prop :=
  ∀ (i : Instr) (s t : State), exec i s = .next t → (∀ x, i ≠ .ldBVx x) → (∀ x, i ≠ .ldMemVx x) →
    ∀ a, t.mem.read a = s.mem.read a

/-- Who writes what (10_state.md R23, R25, R29 to R36): each part of the state but the V registers, memory and PC
changes only through the instructions named. DT and ST: FX15 and FX18 write them, against the general sentence of
40_step_cycle.md R110 (log 5). Redraw: decision D15; log 15. -/
def Obligations.StateChangesOnlyAsNamed : Prop :=
  ∀ (i : Instr) (s t : State), exec i s = .next t →
    t.keyCur = s.keyCur ∧ t.keyPrev = s.keyPrev ∧ t.halt = s.halt ∧ t.cfg = s.cfg ∧
    (t.stack ≠ s.stack → i = .ret ∨ ∃ nnn, i = .call nnn) ∧
    (t.disp ≠ s.disp → i = .cls ∨ ∃ x y n, i = .drw x y n) ∧
    (t.redraw ≠ s.redraw → ∃ x y n, i = .drw x y n) ∧
    (t.dt ≠ s.dt → ∃ x, i = .ldDTVx x) ∧
    (t.st ≠ s.st → ∃ x, i = .ldSTVx x) ∧
    (t.execState ≠ s.execState → ∃ x, i = .ldVxK x) ∧
    (t.draws ≠ s.draws → ∃ x kk, i = .rnd x kk) ∧
    (t.i ≠ s.i → (∃ nnn, i = .ldI nnn) ∨ (∃ x, i = .addIVx x) ∨ (∃ x, i = .ldFVx x) ∨
      ((∃ x, i = .ldMemVx x) ∨ ∃ x, i = .ldVxMem x) ∧ s.cfg.qIndexIncrement = true)

/-- 10_state.md R39: after construction no item counts as written; under `UNINIT_POLICY = fault` an instruction stops at
the first item it reads that was never written, FX55 unless an address before it is out of range; and an FX55 that meets
an address out of range first stops with that. That the written bits are there under `zero` too is the model's DESIGN
CHOICE (log 2); the order of the checks is log 20 (the spec's decisions D4 and D30). -/
def Obligations.UninitialisedReadsStop : Prop :=
  (∀ cfg item, (State.construct cfg).written.has item = false) ∧
  (∀ (i : Instr) (s : State) (before after : List Item) (item : Item),
    itemsRead s i = before ++ item :: after → (∀ j ∈ before, s.readable j = true) →
    s.cfg.uninitPolicy = .fault → s.written.has item = false →
    (∀ x, i = .ldMemVx x → ∀ k, k + 1 < before.length → dataAddress s.i k < 4096) →
    exec i s = .fault (.uninitialisedRead item)) ∧
  (∀ (x : Reg) (k : Nat) (s : State), k ≤ x.toNat → s.readable .i = true →
    (∀ r : Reg, r.toNat ≤ k → s.readable (.v r) = true) →
    (∀ j < k, dataAddress s.i j < 4096) → 4096 ≤ dataAddress s.i k →
    exec (.ldMemVx x) s = .fault (.memoryOutOfRange (dataAddress s.i k)))

/-- The machine right after construction meets the invariant, whatever its configuration. -/
def Obligations.ResetMeetsTheInvariant : Prop := Inv State.reset ∧ ∀ cfg, Inv (State.construct cfg)

/-- Every step keeps the invariant: memory canonical within 4096 bytes, cells on or off, at most 16 return addresses
each at most 0x1000, PC at most 0x10FE, and the accepted key in its register until it is released. -/
def Obligations.StepKeepsTheInvariant : Prop :=
  ∀ s t : State, Inv s → step s = .next t → Inv t

/-- Every schedule of the host keeps the invariant (60_exceptions.md R250: any calls, in any order and number), and
neither the configuration nor Halt changes in it. -/
def Obligations.EveryScheduleKeepsTheInvariant : Prop :=
  ∀ (moves : List Move) (s t : State), Inv s → runMoves moves s = .next t →
    Inv t ∧ t.cfg = s.cfg ∧ t.halt = s.halt

/-! ## Reset and the host (70_reset_and_hazards.md, 60_exceptions.md) -/

/-- 70_reset_and_hazards.md R270: the state right after construction. Memory zero and PC 0x200 are the source's;
the other values, Halt none among them, are the spec's decision D4 (log 8). Every parameter has its default (00_scope.md R8, R9),
`FONT_IMAGE` the table of 93_implementation_defined.md G3, general knowledge (PRESUMED, log 18; decision D21). -/
def Obligations.ResetState : Prop :=
  let s := State.reset
  (∀ a, s.mem.read a = 0x00#8) ∧ s.pc = 0x0200#16 ∧ s.halt = none ∧ (∀ r, s.getV r = 0x00#8) ∧
  s.i = 0x0000#16 ∧ s.stack = [] ∧ s.dt = 0x00#8 ∧ s.st = 0x00#8 ∧
  (∀ row col, s.disp.cell row col = 0#8) ∧ (∀ k, s.pressed k = false ∧ s.wasPressed k = false) ∧
  s.execState = .running ∧ s.redraw = false ∧
  s.cfg.qVfReset = true ∧ s.cfg.qShiftSrcVy = true ∧ s.cfg.qIndexIncrement = true ∧
  s.cfg.qDrawClip = true ∧ s.cfg.qDrawThrottle = true ∧ s.cfg.sysPolicy = .fatal ∧
  s.cfg.uninitPolicy = .zero ∧ s.cfg.keyIndexPolicy = .fault ∧
  fontBytes s.cfg.fontImage =
    [0xF0, 0x90, 0x90, 0x90, 0xF0, 0x20, 0x60, 0x20, 0x20, 0x70, 0xF0, 0x10, 0xF0, 0x80, 0xF0] ++
    [0xF0, 0x10, 0xF0, 0x10, 0xF0, 0x90, 0x90, 0xF0, 0x10, 0x10, 0xF0, 0x80, 0xF0, 0x10, 0xF0] ++
    [0xF0, 0x80, 0xF0, 0x90, 0xF0, 0xF0, 0x10, 0x20, 0x40, 0x40, 0xF0, 0x90, 0xF0, 0x90, 0xF0] ++
    [0xF0, 0x90, 0xF0, 0x10, 0xF0, 0xF0, 0x90, 0xF0, 0x90, 0x90, 0xE0, 0x90, 0xE0, 0x90, 0xE0] ++
    [0xF0, 0x80, 0x80, 0x80, 0xF0, 0xE0, 0x90, 0x90, 0x90, 0xE0, 0xF0, 0x80, 0xF0, 0x80, 0xF0] ++
    [0xF0, 0x80, 0xF0, 0x80, 0x80]

/-- TimerTick: both timers one down, neither below 0, nothing else (the spec's decision D22; log 17). -/
def Obligations.TimerTickCountsBothDown : Prop :=
  ∀ s : State, SameExcept [] [.dt, .st] s s.timerTick ∧
    s.timerTick.dt.toNat = s.dt.toNat - 1 ∧ s.timerTick.st.toNat = s.st.toNat - 1

/-- SetKeys keeps the old snapshot as KeyPrev (decision D17), FrameBoundary clears Redraw (decision D31), and neither
changes anything else (log 17). -/
def Obligations.SnapshotAndFrameBoundary : Prop :=
  ∀ (s : State) (snapshot : Keys),
    s.takeKeys snapshot = { s with keyPrev := s.keyCur, keyCur := snapshot } ∧
    s.frameBoundary = { s with redraw := false }

/-- Boot (70_reset_and_hazards.md R272 to R274, 60_exceptions.md R233): a ROM of more than 3584 bytes fails; else
glyph d stands at 0x50 + 5d, the ROM at 0x200, every other byte is zero, the rest is as constructed (font and call
order: decisions D20 and D21; logs 18 and 19), and the machine with its program meets the invariant. -/
def Obligations.BootPlacesFontAndRom : Prop :=
  ∀ (cfg : Config) (rom : List Byte),
    (3584 < rom.length → boot cfg rom = .error (.romTooLarge rom.length)) ∧
    (rom.length ≤ 3584 → ∃ s, boot cfg rom = .ok s ∧ Inv s ∧ SameExcept [] [.mem] (State.construct cfg) s ∧
      (∀ (d : Fin 16) (j : Fin 5), s.mem.read (0x50 + 5 * d.val + j.val) = cfg.fontImage[d][j]) ∧
      (∀ k (h : k < rom.length), s.mem.read (0x200 + k) = rom[k]) ∧
      (∀ a, (a < 0x50 ∨ (0xA0 ≤ a ∧ a < 0x200) ∨ 0x200 + rom.length ≤ a) → s.mem.read a = 0x00#8))

/-- 10_state.md R39: a write of V, I, DT or ST sets the item's bit, by an instruction (`itemsWritten`: destinations, the
flag, I), by the wait check (V[r]) or by TimerTick (a timer it counts down), and no other bit changes. The bits are kept
under both policies (log 2, DESIGN CHOICE; R39 has them under `fault`). -/
def Obligations.WritesMarkTheirItems : Prop :=
  (∀ (i : Instr) (s t : State), exec i s = .next t → ∀ item,
    (t.written.has item = true ↔ item ∈ itemsWritten s i ∨ s.written.has item = true)) ∧
  (∀ (r : Reg) (p : WaitPhase) (s t : State), s.halt = none → s.execState = .awaitingKey r p → step s = .next t →
    ∀ item, (t.written.has item = true ↔
      (p = .waitingForPress ∧ (∃ k : Key, s.wasPressed k = false ∧ s.pressed k = true) ∧ item = .v r) ∨
      s.written.has item = true)) ∧
  (∀ (s : State) (item : Item), s.timerTick.written.has item = true ↔
    (item = .dt ∧ s.dt ≠ 0x00#8) ∨ (item = .st ∧ s.st ≠ 0x00#8) ∨ s.written.has item = true)

/-- 40_step_cycle.md R110 at the step: no step changes KeyCur or KeyPrev, Redraw changes only in a step that runs DXYN,
and DT and ST only in one that runs FX15 or FX18: those two write the timers (45_timers_keys.md R211, R212), against the
general sentence of R110 (DEDUCED, log 5). -/
def Obligations.StepsChangeTimersAndRedrawAsNamed : Prop :=
  ∀ s t : State, step s = .next t →
    let runs (i : Instr) : Prop :=
      s.execState = .running ∧ ∃ op, memReadWord s.pc.toNat s = .ok op ∧ decode op = .instr i
    t.keyCur = s.keyCur ∧ t.keyPrev = s.keyPrev ∧
    (t.redraw ≠ s.redraw → ∃ x y n, runs (.drw x y n)) ∧
    (t.dt ≠ s.dt → ∃ x, runs (.ldDTVx x)) ∧
    (t.st ≠ s.st → ∃ x, runs (.ldSTVx x))

/-- 60_exceptions.md R246: the host reads 2048 bytes, cell (r, c) at position r*64 + c (10_state.md R30; the order is
the spec's decision D14; log 14). -/
def Obligations.HostReadsTheDisplayInOrder : Prop :=
  ∀ s : State, s.displayBytes.length = 2048 ∧
    ∀ (row : Fin 32) (col : Fin 64), s.displayBytes[row.val * 64 + col.val]? = some (s.disp.cell row col)
end

