-- ==== Sys2Proof/Laws/Decode.lean ====
section
/-! SUPPORT. The fields of a packed word (30_encoding.md R71, R73), and a word from its fields. -/
namespace Sys2Proof

/-! ## The fields as numbers -/

theorem opClass_toNat (op : Word) : (opClass op).toNat = op.toNat / 4096 % 16 := by
  simp [opClass, Nat.shiftRight_eq_div_pow]

theorem opX_toNat (op : Word) : (opX op).toNat = op.toNat / 256 % 16 := by
  simp [opX, Nat.shiftRight_eq_div_pow]

theorem opY_toNat (op : Word) : (opY op).toNat = op.toNat / 16 % 16 := by
  simp [opY, Nat.shiftRight_eq_div_pow]

theorem opN_toNat (op : Word) : (opN op).toNat = op.toNat % 16 := by simp [opN]

theorem opKK_toNat (op : Word) : (opKK op).toNat = op.toNat % 256 := by simp [opKK]

theorem opNNN_toNat (op : Word) : (opNNN op).toNat = op.toNat % 4096 := by simp [opNNN]

/-- Appending adds: the right part is below its width. -/
theorem append_toNat {m n : Nat} (a : BitVec m) (b : BitVec n) :
    (a ++ b).toNat = a.toNat * 2 ^ n + b.toNat := by
  rw [BitVec.toNat_append, ← Nat.shiftLeft_add_eq_or_of_lt b.isLt, Nat.shiftLeft_eq]

theorem packNNN_toNat (c : Nibble) (nnn : Addr) : (packNNN c nnn).toNat = c.toNat * 4096 + nnn.toNat :=
  append_toNat c nnn

theorem packXKK_toNat (c : Nibble) (x : Reg) (kk : Byte) :
    (packXKK c x kk).toNat = c.toNat * 4096 + x.toNat * 256 + kk.toNat := by
  have h : (packXKK c x kk).toNat = (c ++ x ++ kk).toNat := rfl
  rw [h, append_toNat, append_toNat]
  omega

theorem packXYN_toNat (c : Nibble) (x y : Reg) (n : Nibble) :
    (packXYN c x y n).toNat = c.toNat * 4096 + x.toNat * 256 + y.toNat * 16 + n.toNat := by
  have h : (packXYN c x y n).toNat = (c ++ x ++ y ++ n).toNat := rfl
  rw [h, append_toNat, append_toNat, append_toNat]
  omega

/-! ## Fields of a packed word -/

section
variable (c : Nibble) (nnn : Addr) (x y : Reg) (kk : Byte) (n : Nibble)

@[simp] theorem opClass_packNNN : opClass (packNNN c nnn) = c := by
  apply BitVec.eq_of_toNat_eq; rw [opClass_toNat, packNNN_toNat]; omega

@[simp] theorem opNNN_packNNN : opNNN (packNNN c nnn) = nnn := by
  apply BitVec.eq_of_toNat_eq; rw [opNNN_toNat, packNNN_toNat]; omega

@[simp] theorem opClass_packXKK : opClass (packXKK c x kk) = c := by
  apply BitVec.eq_of_toNat_eq; rw [opClass_toNat, packXKK_toNat]; omega

@[simp] theorem opX_packXKK : opX (packXKK c x kk) = x := by
  apply BitVec.eq_of_toNat_eq; rw [opX_toNat, packXKK_toNat]; omega

@[simp] theorem opKK_packXKK : opKK (packXKK c x kk) = kk := by
  apply BitVec.eq_of_toNat_eq; rw [opKK_toNat, packXKK_toNat]; omega

@[simp] theorem opClass_packXYN : opClass (packXYN c x y n) = c := by
  apply BitVec.eq_of_toNat_eq; rw [opClass_toNat, packXYN_toNat]; omega

@[simp] theorem opX_packXYN : opX (packXYN c x y n) = x := by
  apply BitVec.eq_of_toNat_eq; rw [opX_toNat, packXYN_toNat]; omega

@[simp] theorem opY_packXYN : opY (packXYN c x y n) = y := by
  apply BitVec.eq_of_toNat_eq; rw [opY_toNat, packXYN_toNat]; omega

@[simp] theorem opN_packXYN : opN (packXYN c x y n) = n := by
  apply BitVec.eq_of_toNat_eq; rw [opN_toNat, packXYN_toNat]; omega

end

/-! ## A word from its fields -/

theorem packNNN_fields (op : Word) : packNNN (opClass op) (opNNN op) = op := by
  apply BitVec.eq_of_toNat_eq; rw [packNNN_toNat, opClass_toNat, opNNN_toNat]; omega

theorem packXKK_fields (op : Word) : packXKK (opClass op) (opX op) (opKK op) = op := by
  apply BitVec.eq_of_toNat_eq; rw [packXKK_toNat, opClass_toNat, opX_toNat, opKK_toNat]; omega

theorem packXYN_fields (op : Word) : packXYN (opClass op) (opX op) (opY op) (opN op) = op := by
  apply BitVec.eq_of_toNat_eq
  rw [packXYN_toNat, opClass_toNat, opX_toNat, opY_toNat, opN_toNat]; omega

/-! ## The masks of the opcode map, as fields (30_encoding.md R74) -/

theorem packNNN_getLsbD (c : Nibble) (nnn : Addr) (k : Nat) :
    (packNNN c nnn).getLsbD k = if k < 12 then nnn.getLsbD k else c.getLsbD (k - 12) :=
  BitVec.getLsbD_append

theorem packXKK_getLsbD (c : Nibble) (x : Reg) (kk : Byte) (k : Nat) :
    (packXKK c x kk).getLsbD k =
      if k < 8 then kk.getLsbD k else if k - 8 < 4 then x.getLsbD (k - 8) else c.getLsbD (k - 8 - 4) := by
  have h : (packXKK c x kk).getLsbD k = (c ++ x ++ kk).getLsbD k := rfl
  rw [h, BitVec.getLsbD_append, BitVec.getLsbD_append]

theorem packXYN_getLsbD (c : Nibble) (x y : Reg) (n : Nibble) (k : Nat) :
    (packXYN c x y n).getLsbD k =
      if k < 4 then n.getLsbD k else if k - 4 < 4 then y.getLsbD (k - 4)
      else if k - 4 - 4 < 4 then x.getLsbD (k - 4 - 4) else c.getLsbD (k - 4 - 4 - 4) := by
  have h : (packXYN c x y n).getLsbD k = (c ++ x ++ y ++ n).getLsbD k := rfl
  rw [h, BitVec.getLsbD_append, BitVec.getLsbD_append, BitVec.getLsbD_append]

theorem and_mask_class (op : Word) : op &&& 0xF000#16 = packNNN (opClass op) 0x000 := by
  apply BitVec.eq_of_getLsbD_eq
  intro k hk
  rw [packNNN_getLsbD]
  interval_cases k <;> simp [opClass]

theorem and_mask_nibble (op : Word) : op &&& 0xF00F#16 = packXYN (opClass op) 0x0 0x0 (opN op) := by
  apply BitVec.eq_of_getLsbD_eq
  intro k hk
  rw [packXYN_getLsbD]
  interval_cases k <;> simp [opClass, opN]

theorem and_mask_byte (op : Word) : op &&& 0xF0FF#16 = packXKK (opClass op) 0x0 (opKK op) := by
  apply BitVec.eq_of_getLsbD_eq
  intro k hk
  rw [packXKK_getLsbD]
  interval_cases k <;> simp [opClass, opKK]

theorem and_mask_all (op : Word) : op &&& 0xFFFF#16 = op := by
  apply BitVec.eq_of_getLsbD_eq
  intro k hk
  interval_cases k <;> simp

end Sys2Proof
end

