-- ==== Sys2Proof/Laws/State.lean ====
section
/-! SUPPORT. One lemma per field per update of the state, each true by definition, so that no later proof unfolds a
record update; then the reads of registers, written bits and policies through the updates. -/
namespace Sys2Proof.Machine

/-! ## setV -/
section
variable (s : State) (x : Reg) (b : Byte)

@[simp] theorem State.setV_mem : (s.setV x b).mem = s.mem := rfl
@[simp] theorem State.setV_v : (s.setV x b).v = s.v.set x.toNat b := rfl
@[simp] theorem State.setV_i : (s.setV x b).i = s.i := rfl
@[simp] theorem State.setV_pc : (s.setV x b).pc = s.pc := rfl
@[simp] theorem State.setV_stack : (s.setV x b).stack = s.stack := rfl
@[simp] theorem State.setV_dt : (s.setV x b).dt = s.dt := rfl
@[simp] theorem State.setV_st : (s.setV x b).st = s.st := rfl
@[simp] theorem State.setV_disp : (s.setV x b).disp = s.disp := rfl
@[simp] theorem State.setV_keyCur : (s.setV x b).keyCur = s.keyCur := rfl
@[simp] theorem State.setV_keyPrev : (s.setV x b).keyPrev = s.keyPrev := rfl
@[simp] theorem State.setV_execState : (s.setV x b).execState = s.execState := rfl
@[simp] theorem State.setV_redraw : (s.setV x b).redraw = s.redraw := rfl
@[simp] theorem State.setV_halt : (s.setV x b).halt = s.halt := rfl
@[simp] theorem State.setV_written : (s.setV x b).written = s.written.mark (.v x) := rfl
@[simp] theorem State.setV_draws : (s.setV x b).draws = s.draws := rfl
@[simp] theorem State.setV_cfg : (s.setV x b).cfg = s.cfg := rfl
end

/-! ## setI -/
section
variable (s : State) (a : Word)

@[simp] theorem State.setI_mem : (s.setI a).mem = s.mem := rfl
@[simp] theorem State.setI_v : (s.setI a).v = s.v := rfl
@[simp] theorem State.setI_i : (s.setI a).i = a := rfl
@[simp] theorem State.setI_pc : (s.setI a).pc = s.pc := rfl
@[simp] theorem State.setI_stack : (s.setI a).stack = s.stack := rfl
@[simp] theorem State.setI_dt : (s.setI a).dt = s.dt := rfl
@[simp] theorem State.setI_st : (s.setI a).st = s.st := rfl
@[simp] theorem State.setI_disp : (s.setI a).disp = s.disp := rfl
@[simp] theorem State.setI_keyCur : (s.setI a).keyCur = s.keyCur := rfl
@[simp] theorem State.setI_keyPrev : (s.setI a).keyPrev = s.keyPrev := rfl
@[simp] theorem State.setI_execState : (s.setI a).execState = s.execState := rfl
@[simp] theorem State.setI_redraw : (s.setI a).redraw = s.redraw := rfl
@[simp] theorem State.setI_halt : (s.setI a).halt = s.halt := rfl
@[simp] theorem State.setI_written : (s.setI a).written = s.written.mark .i := rfl
@[simp] theorem State.setI_draws : (s.setI a).draws = s.draws := rfl
@[simp] theorem State.setI_cfg : (s.setI a).cfg = s.cfg := rfl
end

/-! ## setDT -/
section
variable (s : State) (b : Byte)

@[simp] theorem State.setDT_mem : (s.setDT b).mem = s.mem := rfl
@[simp] theorem State.setDT_v : (s.setDT b).v = s.v := rfl
@[simp] theorem State.setDT_i : (s.setDT b).i = s.i := rfl
@[simp] theorem State.setDT_pc : (s.setDT b).pc = s.pc := rfl
@[simp] theorem State.setDT_stack : (s.setDT b).stack = s.stack := rfl
@[simp] theorem State.setDT_dt : (s.setDT b).dt = b := rfl
@[simp] theorem State.setDT_st : (s.setDT b).st = s.st := rfl
@[simp] theorem State.setDT_disp : (s.setDT b).disp = s.disp := rfl
@[simp] theorem State.setDT_keyCur : (s.setDT b).keyCur = s.keyCur := rfl
@[simp] theorem State.setDT_keyPrev : (s.setDT b).keyPrev = s.keyPrev := rfl
@[simp] theorem State.setDT_execState : (s.setDT b).execState = s.execState := rfl
@[simp] theorem State.setDT_redraw : (s.setDT b).redraw = s.redraw := rfl
@[simp] theorem State.setDT_halt : (s.setDT b).halt = s.halt := rfl
@[simp] theorem State.setDT_written : (s.setDT b).written = s.written.mark .dt := rfl
@[simp] theorem State.setDT_draws : (s.setDT b).draws = s.draws := rfl
@[simp] theorem State.setDT_cfg : (s.setDT b).cfg = s.cfg := rfl
end

/-! ## setST -/
section
variable (s : State) (b : Byte)

@[simp] theorem State.setST_mem : (s.setST b).mem = s.mem := rfl
@[simp] theorem State.setST_v : (s.setST b).v = s.v := rfl
@[simp] theorem State.setST_i : (s.setST b).i = s.i := rfl
@[simp] theorem State.setST_pc : (s.setST b).pc = s.pc := rfl
@[simp] theorem State.setST_stack : (s.setST b).stack = s.stack := rfl
@[simp] theorem State.setST_dt : (s.setST b).dt = s.dt := rfl
@[simp] theorem State.setST_st : (s.setST b).st = b := rfl
@[simp] theorem State.setST_disp : (s.setST b).disp = s.disp := rfl
@[simp] theorem State.setST_keyCur : (s.setST b).keyCur = s.keyCur := rfl
@[simp] theorem State.setST_keyPrev : (s.setST b).keyPrev = s.keyPrev := rfl
@[simp] theorem State.setST_execState : (s.setST b).execState = s.execState := rfl
@[simp] theorem State.setST_redraw : (s.setST b).redraw = s.redraw := rfl
@[simp] theorem State.setST_halt : (s.setST b).halt = s.halt := rfl
@[simp] theorem State.setST_written : (s.setST b).written = s.written.mark .st := rfl
@[simp] theorem State.setST_draws : (s.setST b).draws = s.draws := rfl
@[simp] theorem State.setST_cfg : (s.setST b).cfg = s.cfg := rfl
end

/-! ## setPC -/
section
variable (s : State) (a : Word)

@[simp] theorem State.setPC_mem : (s.setPC a).mem = s.mem := rfl
@[simp] theorem State.setPC_v : (s.setPC a).v = s.v := rfl
@[simp] theorem State.setPC_i : (s.setPC a).i = s.i := rfl
@[simp] theorem State.setPC_pc : (s.setPC a).pc = a := rfl
@[simp] theorem State.setPC_stack : (s.setPC a).stack = s.stack := rfl
@[simp] theorem State.setPC_dt : (s.setPC a).dt = s.dt := rfl
@[simp] theorem State.setPC_st : (s.setPC a).st = s.st := rfl
@[simp] theorem State.setPC_disp : (s.setPC a).disp = s.disp := rfl
@[simp] theorem State.setPC_keyCur : (s.setPC a).keyCur = s.keyCur := rfl
@[simp] theorem State.setPC_keyPrev : (s.setPC a).keyPrev = s.keyPrev := rfl
@[simp] theorem State.setPC_execState : (s.setPC a).execState = s.execState := rfl
@[simp] theorem State.setPC_redraw : (s.setPC a).redraw = s.redraw := rfl
@[simp] theorem State.setPC_halt : (s.setPC a).halt = s.halt := rfl
@[simp] theorem State.setPC_written : (s.setPC a).written = s.written := rfl
@[simp] theorem State.setPC_draws : (s.setPC a).draws = s.draws := rfl
@[simp] theorem State.setPC_cfg : (s.setPC a).cfg = s.cfg := rfl
end

/-! ## setStack -/
section
variable (s : State) (l : List Word)

@[simp] theorem State.setStack_mem : (s.setStack l).mem = s.mem := rfl
@[simp] theorem State.setStack_v : (s.setStack l).v = s.v := rfl
@[simp] theorem State.setStack_i : (s.setStack l).i = s.i := rfl
@[simp] theorem State.setStack_pc : (s.setStack l).pc = s.pc := rfl
@[simp] theorem State.setStack_stack : (s.setStack l).stack = l := rfl
@[simp] theorem State.setStack_dt : (s.setStack l).dt = s.dt := rfl
@[simp] theorem State.setStack_st : (s.setStack l).st = s.st := rfl
@[simp] theorem State.setStack_disp : (s.setStack l).disp = s.disp := rfl
@[simp] theorem State.setStack_keyCur : (s.setStack l).keyCur = s.keyCur := rfl
@[simp] theorem State.setStack_keyPrev : (s.setStack l).keyPrev = s.keyPrev := rfl
@[simp] theorem State.setStack_execState : (s.setStack l).execState = s.execState := rfl
@[simp] theorem State.setStack_redraw : (s.setStack l).redraw = s.redraw := rfl
@[simp] theorem State.setStack_halt : (s.setStack l).halt = s.halt := rfl
@[simp] theorem State.setStack_written : (s.setStack l).written = s.written := rfl
@[simp] theorem State.setStack_draws : (s.setStack l).draws = s.draws := rfl
@[simp] theorem State.setStack_cfg : (s.setStack l).cfg = s.cfg := rfl
end

/-! ## setMem -/
section
variable (s : State) (m : Memory)

@[simp] theorem State.setMem_mem : (s.setMem m).mem = m := rfl
@[simp] theorem State.setMem_v : (s.setMem m).v = s.v := rfl
@[simp] theorem State.setMem_i : (s.setMem m).i = s.i := rfl
@[simp] theorem State.setMem_pc : (s.setMem m).pc = s.pc := rfl
@[simp] theorem State.setMem_stack : (s.setMem m).stack = s.stack := rfl
@[simp] theorem State.setMem_dt : (s.setMem m).dt = s.dt := rfl
@[simp] theorem State.setMem_st : (s.setMem m).st = s.st := rfl
@[simp] theorem State.setMem_disp : (s.setMem m).disp = s.disp := rfl
@[simp] theorem State.setMem_keyCur : (s.setMem m).keyCur = s.keyCur := rfl
@[simp] theorem State.setMem_keyPrev : (s.setMem m).keyPrev = s.keyPrev := rfl
@[simp] theorem State.setMem_execState : (s.setMem m).execState = s.execState := rfl
@[simp] theorem State.setMem_redraw : (s.setMem m).redraw = s.redraw := rfl
@[simp] theorem State.setMem_halt : (s.setMem m).halt = s.halt := rfl
@[simp] theorem State.setMem_written : (s.setMem m).written = s.written := rfl
@[simp] theorem State.setMem_draws : (s.setMem m).draws = s.draws := rfl
@[simp] theorem State.setMem_cfg : (s.setMem m).cfg = s.cfg := rfl
end

/-! ## setDisp -/
section
variable (s : State) (d : Display)

@[simp] theorem State.setDisp_mem : (s.setDisp d).mem = s.mem := rfl
@[simp] theorem State.setDisp_v : (s.setDisp d).v = s.v := rfl
@[simp] theorem State.setDisp_i : (s.setDisp d).i = s.i := rfl
@[simp] theorem State.setDisp_pc : (s.setDisp d).pc = s.pc := rfl
@[simp] theorem State.setDisp_stack : (s.setDisp d).stack = s.stack := rfl
@[simp] theorem State.setDisp_dt : (s.setDisp d).dt = s.dt := rfl
@[simp] theorem State.setDisp_st : (s.setDisp d).st = s.st := rfl
@[simp] theorem State.setDisp_disp : (s.setDisp d).disp = d := rfl
@[simp] theorem State.setDisp_keyCur : (s.setDisp d).keyCur = s.keyCur := rfl
@[simp] theorem State.setDisp_keyPrev : (s.setDisp d).keyPrev = s.keyPrev := rfl
@[simp] theorem State.setDisp_execState : (s.setDisp d).execState = s.execState := rfl
@[simp] theorem State.setDisp_redraw : (s.setDisp d).redraw = s.redraw := rfl
@[simp] theorem State.setDisp_halt : (s.setDisp d).halt = s.halt := rfl
@[simp] theorem State.setDisp_written : (s.setDisp d).written = s.written := rfl
@[simp] theorem State.setDisp_draws : (s.setDisp d).draws = s.draws := rfl
@[simp] theorem State.setDisp_cfg : (s.setDisp d).cfg = s.cfg := rfl
end

/-! ## setExec -/
section
variable (s : State) (e : ExecState)

@[simp] theorem State.setExec_mem : (s.setExec e).mem = s.mem := rfl
@[simp] theorem State.setExec_v : (s.setExec e).v = s.v := rfl
@[simp] theorem State.setExec_i : (s.setExec e).i = s.i := rfl
@[simp] theorem State.setExec_pc : (s.setExec e).pc = s.pc := rfl
@[simp] theorem State.setExec_stack : (s.setExec e).stack = s.stack := rfl
@[simp] theorem State.setExec_dt : (s.setExec e).dt = s.dt := rfl
@[simp] theorem State.setExec_st : (s.setExec e).st = s.st := rfl
@[simp] theorem State.setExec_disp : (s.setExec e).disp = s.disp := rfl
@[simp] theorem State.setExec_keyCur : (s.setExec e).keyCur = s.keyCur := rfl
@[simp] theorem State.setExec_keyPrev : (s.setExec e).keyPrev = s.keyPrev := rfl
@[simp] theorem State.setExec_execState : (s.setExec e).execState = e := rfl
@[simp] theorem State.setExec_redraw : (s.setExec e).redraw = s.redraw := rfl
@[simp] theorem State.setExec_halt : (s.setExec e).halt = s.halt := rfl
@[simp] theorem State.setExec_written : (s.setExec e).written = s.written := rfl
@[simp] theorem State.setExec_draws : (s.setExec e).draws = s.draws := rfl
@[simp] theorem State.setExec_cfg : (s.setExec e).cfg = s.cfg := rfl
end

/-! ## setRedraw -/
section
variable (s : State) (b : Bool)

@[simp] theorem State.setRedraw_mem : (s.setRedraw b).mem = s.mem := rfl
@[simp] theorem State.setRedraw_v : (s.setRedraw b).v = s.v := rfl
@[simp] theorem State.setRedraw_i : (s.setRedraw b).i = s.i := rfl
@[simp] theorem State.setRedraw_pc : (s.setRedraw b).pc = s.pc := rfl
@[simp] theorem State.setRedraw_stack : (s.setRedraw b).stack = s.stack := rfl
@[simp] theorem State.setRedraw_dt : (s.setRedraw b).dt = s.dt := rfl
@[simp] theorem State.setRedraw_st : (s.setRedraw b).st = s.st := rfl
@[simp] theorem State.setRedraw_disp : (s.setRedraw b).disp = s.disp := rfl
@[simp] theorem State.setRedraw_keyCur : (s.setRedraw b).keyCur = s.keyCur := rfl
@[simp] theorem State.setRedraw_keyPrev : (s.setRedraw b).keyPrev = s.keyPrev := rfl
@[simp] theorem State.setRedraw_execState : (s.setRedraw b).execState = s.execState := rfl
@[simp] theorem State.setRedraw_redraw : (s.setRedraw b).redraw = b := rfl
@[simp] theorem State.setRedraw_halt : (s.setRedraw b).halt = s.halt := rfl
@[simp] theorem State.setRedraw_written : (s.setRedraw b).written = s.written := rfl
@[simp] theorem State.setRedraw_draws : (s.setRedraw b).draws = s.draws := rfl
@[simp] theorem State.setRedraw_cfg : (s.setRedraw b).cfg = s.cfg := rfl
end

/-! ## setKeys -/
section
variable (s : State) (p c : Keys)

@[simp] theorem State.setKeys_mem : (s.setKeys p c).mem = s.mem := rfl
@[simp] theorem State.setKeys_v : (s.setKeys p c).v = s.v := rfl
@[simp] theorem State.setKeys_i : (s.setKeys p c).i = s.i := rfl
@[simp] theorem State.setKeys_pc : (s.setKeys p c).pc = s.pc := rfl
@[simp] theorem State.setKeys_stack : (s.setKeys p c).stack = s.stack := rfl
@[simp] theorem State.setKeys_dt : (s.setKeys p c).dt = s.dt := rfl
@[simp] theorem State.setKeys_st : (s.setKeys p c).st = s.st := rfl
@[simp] theorem State.setKeys_disp : (s.setKeys p c).disp = s.disp := rfl
@[simp] theorem State.setKeys_keyCur : (s.setKeys p c).keyCur = c := rfl
@[simp] theorem State.setKeys_keyPrev : (s.setKeys p c).keyPrev = p := rfl
@[simp] theorem State.setKeys_execState : (s.setKeys p c).execState = s.execState := rfl
@[simp] theorem State.setKeys_redraw : (s.setKeys p c).redraw = s.redraw := rfl
@[simp] theorem State.setKeys_halt : (s.setKeys p c).halt = s.halt := rfl
@[simp] theorem State.setKeys_written : (s.setKeys p c).written = s.written := rfl
@[simp] theorem State.setKeys_draws : (s.setKeys p c).draws = s.draws := rfl
@[simp] theorem State.setKeys_cfg : (s.setKeys p c).cfg = s.cfg := rfl
end

/-! ## countDraw -/
section
variable (s : State) 

@[simp] theorem State.countDraw_mem : (s.countDraw).mem = s.mem := rfl
@[simp] theorem State.countDraw_v : (s.countDraw).v = s.v := rfl
@[simp] theorem State.countDraw_i : (s.countDraw).i = s.i := rfl
@[simp] theorem State.countDraw_pc : (s.countDraw).pc = s.pc := rfl
@[simp] theorem State.countDraw_stack : (s.countDraw).stack = s.stack := rfl
@[simp] theorem State.countDraw_dt : (s.countDraw).dt = s.dt := rfl
@[simp] theorem State.countDraw_st : (s.countDraw).st = s.st := rfl
@[simp] theorem State.countDraw_disp : (s.countDraw).disp = s.disp := rfl
@[simp] theorem State.countDraw_keyCur : (s.countDraw).keyCur = s.keyCur := rfl
@[simp] theorem State.countDraw_keyPrev : (s.countDraw).keyPrev = s.keyPrev := rfl
@[simp] theorem State.countDraw_execState : (s.countDraw).execState = s.execState := rfl
@[simp] theorem State.countDraw_redraw : (s.countDraw).redraw = s.redraw := rfl
@[simp] theorem State.countDraw_halt : (s.countDraw).halt = s.halt := rfl
@[simp] theorem State.countDraw_written : (s.countDraw).written = s.written := rfl
@[simp] theorem State.countDraw_draws : (s.countDraw).draws = s.draws + 1 := rfl
@[simp] theorem State.countDraw_cfg : (s.countDraw).cfg = s.cfg := rfl
end

/-! ## Registers and written bits through an update -/

@[simp] theorem Written.has_mark (a b : Item) (w : Written) :
    (w.mark a).has b = (decide (a = b) || w.has b) := by
  cases a with
  | v x =>
    cases b with
    | v y =>
      by_cases h : x = y
      · subst h; simp [Written.mark, Written.has]
      · have hn : x.toNat ≠ y.toNat := fun e => h (BitVec.eq_of_toNat_eq e)
        simp [Written.mark, Written.has, h, hn]
    | _ => simp [Written.mark, Written.has]
  | _ => cases b <;> simp [Written.mark, Written.has]

/-- A write sets its item's bit and no other (10_state.md R39). -/
theorem Written.has_mark_iff (a b : Item) (w : Written) :
    (w.mark a).has b = true ↔ b = a ∨ w.has b = true := by
  rw [Written.has_mark, Bool.or_eq_true, decide_eq_true_eq, eq_comm]

@[simp] theorem State.getV_setV (x y : Reg) (b : Byte) (s : State) :
    (s.setV x b).getV y = if x = y then b else s.getV y := by
  by_cases h : x = y
  · subst h; simp [State.getV]
  · have hn : x.toNat ≠ y.toNat := fun e => h (BitVec.eq_of_toNat_eq e)
    simp [State.getV, h, hn]

@[simp] theorem State.getV_setI (r : Reg) (a : Word) (s : State) : (s.setI a).getV r = s.getV r := rfl
@[simp] theorem State.getV_setDT (r : Reg) (b : Byte) (s : State) : (s.setDT b).getV r = s.getV r := rfl
@[simp] theorem State.getV_setST (r : Reg) (b : Byte) (s : State) : (s.setST b).getV r = s.getV r := rfl
@[simp] theorem State.getV_setPC (r : Reg) (a : Word) (s : State) : (s.setPC a).getV r = s.getV r := rfl
@[simp] theorem State.getV_setStack (r : Reg) (l : List Word) (s : State) : (s.setStack l).getV r = s.getV r := rfl
@[simp] theorem State.getV_setMem (r : Reg) (m : Memory) (s : State) : (s.setMem m).getV r = s.getV r := rfl
@[simp] theorem State.getV_setDisp (r : Reg) (d : Display) (s : State) : (s.setDisp d).getV r = s.getV r := rfl
@[simp] theorem State.getV_setExec (r : Reg) (e : ExecState) (s : State) : (s.setExec e).getV r = s.getV r := rfl
@[simp] theorem State.getV_setRedraw (r : Reg) (b : Bool) (s : State) : (s.setRedraw b).getV r = s.getV r := rfl
@[simp] theorem State.getV_setKeys (r : Reg) (p c : Keys) (s : State) : (s.setKeys p c).getV r = s.getV r := rfl
@[simp] theorem State.getV_countDraw (r : Reg) (s : State) : (s.countDraw).getV r = s.getV r := rfl

@[simp] theorem State.readable_setPC (item : Item) (a : Word) (s : State) : (s.setPC a).readable item = s.readable item := rfl
@[simp] theorem State.readable_setStack (item : Item) (l : List Word) (s : State) : (s.setStack l).readable item = s.readable item := rfl
@[simp] theorem State.readable_setMem (item : Item) (m : Memory) (s : State) : (s.setMem m).readable item = s.readable item := rfl
@[simp] theorem State.readable_setDisp (item : Item) (d : Display) (s : State) : (s.setDisp d).readable item = s.readable item := rfl
@[simp] theorem State.readable_setExec (item : Item) (e : ExecState) (s : State) : (s.setExec e).readable item = s.readable item := rfl
@[simp] theorem State.readable_setRedraw (item : Item) (b : Bool) (s : State) : (s.setRedraw b).readable item = s.readable item := rfl
@[simp] theorem State.readable_setKeys (item : Item) (p c : Keys) (s : State) : (s.setKeys p c).readable item = s.readable item := rfl
@[simp] theorem State.readable_countDraw (item : Item) (s : State) : (s.countDraw).readable item = s.readable item := rfl

/-- A write keeps every readable item readable. -/
theorem State.readable_setV {item : Item} (x : Reg) (b : Byte) {s : State} (h : s.readable item = true) :
    (s.setV x b).readable item = true := by
  revert h
  simp only [State.readable, State.setV_cfg, State.setV_written, Written.has_mark]
  cases s.cfg.uninitPolicy <;> simp_all

/-- A write keeps every readable item readable. -/
theorem State.readable_setI {item : Item} (a : Word) {s : State} (h : s.readable item = true) :
    (s.setI a).readable item = true := by
  revert h
  simp only [State.readable, State.setI_cfg, State.setI_written, Written.has_mark]
  cases s.cfg.uninitPolicy <;> simp_all

/-- A write keeps every readable item readable. -/
theorem State.readable_setDT {item : Item} (b : Byte) {s : State} (h : s.readable item = true) :
    (s.setDT b).readable item = true := by
  revert h
  simp only [State.readable, State.setDT_cfg, State.setDT_written, Written.has_mark]
  cases s.cfg.uninitPolicy <;> simp_all

/-- A write keeps every readable item readable. -/
theorem State.readable_setST {item : Item} (b : Byte) {s : State} (h : s.readable item = true) :
    (s.setST b).readable item = true := by
  revert h
  simp only [State.readable, State.setST_cfg, State.setST_written, Written.has_mark]
  cases s.cfg.uninitPolicy <;> simp_all

end Sys2Proof.Machine
end

