-- ==== Sys2Proof/Laws/Memory.lean ====
section
/-! SUPPORT. The laws of memory: a read after a write, the frame of a write, and the canonical form, which every
memory operation keeps (20_memory.md R50 to R54, R63). -/
namespace Sys2Proof.Machine

/-! ## Cells -/

theorem lookupCell_filter_other {a b : Nat} (h : a ≠ b) (cs : List Host.Cell) :
    lookupCell a (cs.filter (fun c => c.1 != b)) = lookupCell a cs := by
  induction cs with
  | nil => rfl
  | cons c cs ih =>
    by_cases hb : c.1 = b
    · have ha : c.1 ≠ a := fun e => h (e.symm.trans hb)
      rw [List.filter_cons_of_neg (by simp [hb]), ih]
      simp [lookupCell, ha]
    · rw [List.filter_cons_of_pos (by simp [hb])]
      simp [lookupCell, ih]

theorem lookupCell_filter_same (a : Nat) (cs : List Host.Cell) :
    lookupCell a (cs.filter (fun c => c.1 != a)) = 0x00#8 := by
  induction cs with
  | nil => rfl
  | cons c cs ih =>
    by_cases hb : c.1 = a
    · rw [List.filter_cons_of_neg (by simp [hb]), ih]
    · rw [List.filter_cons_of_pos (by simp [hb])]
      simp [lookupCell, ih, hb]

theorem lookupCell_insertCell_other {a a' : Nat} (h : a' ≠ a) (b : Byte) (cs : List Host.Cell) :
    lookupCell a' (insertCell a b cs) = lookupCell a' cs := by
  induction cs with
  | nil => simp [insertCell, lookupCell, Ne.symm h]
  | cons c cs ih =>
    by_cases hl : a < c.1
    · simp [insertCell, lookupCell, hl, Ne.symm h]
    · simp [insertCell, lookupCell, hl, ih]

theorem lookupCell_insertCell_same (a : Nat) (b : Byte) (cs : List Host.Cell)
    (h : ∀ c ∈ cs, c.1 ≠ a) : lookupCell a (insertCell a b cs) = b := by
  induction cs with
  | nil => simp [insertCell, lookupCell]
  | cons c cs ih =>
    have hc : c.1 ≠ a := h c (by simp)
    have ih' := ih (fun d hd => h d (by simp [hd]))
    by_cases hl : a < c.1
    · simp [insertCell, lookupCell, hl]
    · simp [insertCell, lookupCell, hl, hc, ih']

/-! ## Read after write -/

@[simp] theorem Memory.read_write_same (a : Nat) (b : Byte) (m : Memory) :
    (m.write a b).read a = b := by
  unfold Memory.write Memory.read
  by_cases hb : b = 0x00#8
  · simp [hb, lookupCell_filter_same]
  · simp only [hb, if_false]
    exact lookupCell_insertCell_same a b _ (by simp)

theorem Memory.read_write_other {a a' : Nat} (h : a' ≠ a) (b : Byte) (m : Memory) :
    (m.write a b).read a' = m.read a' := by
  unfold Memory.write Memory.read
  by_cases hb : b = 0x00#8
  · simp [hb, lookupCell_filter_other h]
  · simp only [hb, if_false]
    rw [lookupCell_insertCell_other h, lookupCell_filter_other h]

theorem Memory.read_write (a a' : Nat) (b : Byte) (m : Memory) :
    (m.write a b).read a' = if a' = a then b else m.read a' := by
  by_cases h : a' = a
  · simp [h]
  · simp [h, Memory.read_write_other h]

/-! ## The canonical form -/

theorem risingCells_filter (p : Host.Cell → Bool) {cs : List Host.Cell} (h : risingCells cs = true) :
    risingCells (cs.filter p) = true := by
  induction cs with
  | nil => rfl
  | cons c cs ih =>
    simp only [risingCells, Bool.and_eq_true, List.all_eq_true, decide_eq_true_eq] at h
    by_cases hp : p c = true
    · rw [List.filter_cons_of_pos hp]
      simp only [risingCells, Bool.and_eq_true, List.all_eq_true, decide_eq_true_eq]
      exact ⟨fun d hd => h.1 d (List.mem_of_mem_filter hd), ih h.2⟩
    · rw [List.filter_cons_of_neg hp]
      exact ih h.2

theorem mem_insertCell {a : Nat} {b : Byte} {cs : List Host.Cell} {d : Host.Cell}
    (h : d ∈ insertCell a b cs) : d = (a, b) ∨ d ∈ cs := by
  induction cs with
  | nil => simpa [insertCell] using h
  | cons c cs ih =>
    by_cases hl : a < c.1
    · simp only [insertCell, hl, if_true, List.mem_cons] at h
      simpa using h
    · simp only [insertCell, hl, if_false, List.mem_cons] at h
      rcases h with h | h
      · simp [h]
      · rcases ih h with h | h <;> simp [h]

theorem risingCells_insertCell {a : Nat} {b : Byte} {cs : List Host.Cell} (h : risingCells cs = true)
    (hne : ∀ c ∈ cs, c.1 ≠ a) : risingCells (insertCell a b cs) = true := by
  induction cs with
  | nil => rfl
  | cons c cs ih =>
    have h' := h
    simp only [risingCells, Bool.and_eq_true, List.all_eq_true, decide_eq_true_eq] at h
    have hc := hne c (by simp)
    by_cases hl : a < c.1
    · simp only [insertCell, hl, if_true]
      rw [risingCells, h', Bool.and_true]
      simp only [List.all_eq_true, decide_eq_true_eq]
      intro d hd
      rcases List.mem_cons.1 hd with rfl | hd
      · exact hl
      · exact lt_trans hl (h.1 d hd)
    · simp only [insertCell, hl, if_false, risingCells, Bool.and_eq_true, List.all_eq_true,
        decide_eq_true_eq]
      refine ⟨fun d hd => ?_, ih h.2 (fun d hd => hne d (by simp [hd]))⟩
      rcases mem_insertCell hd with rfl | hd
      · simp only; omega
      · exact h.1 d hd

/-- A write to an address of the memory keeps the canonical form. -/
theorem Memory.wf_write {a : Nat} (ha : a < memSize) (b : Byte) {m : Memory} (h : m.wf = true) :
    (m.write a b).wf = true := by
  simp only [Memory.wf, Bool.and_eq_true, List.all_eq_true, decide_eq_true_eq, bne_iff_ne] at h ⊢
  unfold Memory.write
  have hf : ∀ c ∈ m.cells.filter (fun c => c.1 != a), c.1 < memSize ∧ c.2 ≠ 0x00#8 :=
    fun c hc => h.2 c (List.mem_of_mem_filter hc)
  by_cases hb : b = 0x00#8
  · simp only [hb, if_true]
    exact ⟨risingCells_filter _ h.1, hf⟩
  · simp only [hb, if_false]
    refine ⟨risingCells_insertCell (risingCells_filter _ h.1) (by simp), fun c hc => ?_⟩
    rcases mem_insertCell hc with rfl | hc
    · exact ⟨ha, hb⟩
    · exact hf c hc

/-- Writing a string of bytes keeps the canonical form when it ends within the memory. -/
theorem Memory.wf_writeBytes {bs : List Byte} {base : Nat} (h : base + bs.length ≤ memSize) {m : Memory}
    (hm : m.wf = true) : (m.writeBytes base bs).wf = true := by
  induction bs generalizing base m with
  | nil => exact hm
  | cons b bs ih =>
    simp only [List.length_cons] at h
    exact ih (by omega) (Memory.wf_write (by omega) b hm)

theorem Memory.wf_empty : Memory.wf ⟨[]⟩ = true := rfl

/-- What a string of bytes leaves at an address. -/
theorem Memory.read_writeBytes (a base : Nat) (bs : List Byte) (m : Memory) :
    (m.writeBytes base bs).read a =
      if h : base ≤ a ∧ a - base < bs.length then bs[a - base]'h.2 else m.read a := by
  induction bs generalizing base m with
  | nil => simp [Memory.writeBytes]
  | cons b bs ih =>
    rw [Memory.writeBytes, ih]
    by_cases h1 : base + 1 ≤ a ∧ a - (base + 1) < bs.length
    · have h2 : base ≤ a ∧ a - base < (b :: bs).length := by simp only [List.length_cons]; omega
      have e : a - base = (a - (base + 1)) + 1 := by omega
      simp only [h1, h2, and_self, dif_pos]
      simp [e]
    · rw [dif_neg h1, Memory.read_write]
      by_cases h3 : a = base
      · subst h3; simp
      · have h2 : ¬(base ≤ a ∧ a - base < (b :: bs).length) := by
          simp only [List.length_cons]; omega
        rw [if_neg h3, dif_neg h2]

/-! ## The accessors -/

theorem memRead_eq_ok {a : Nat} {s : State} (h : a < memSize) : memRead a s = .ok (s.mem.read a) := by
  simp [memRead, h]

theorem memRead_eq_error {a : Nat} {s : State} (h : memSize ≤ a) :
    memRead a s = .error (.memoryOutOfRange a) := by
  simp [memRead, Nat.not_lt.2 h]

theorem memWrite_eq_ok {a : Nat} {b : Byte} {s : State} (h : a < memSize) :
    memWrite a b s = .ok (s.setMem (s.mem.write a b)) := by
  simp [memWrite, h]

theorem memWrite_eq_error {a : Nat} {b : Byte} {s : State} (h : memSize ≤ a) :
    memWrite a b s = .error (.memoryOutOfRange a) := by
  simp [memWrite, Nat.not_lt.2 h]

/-- Everything `memWrite` can do. -/
theorem memWrite_cases (a : Nat) (b : Byte) (s : State) :
    (a < memSize ∧ memWrite a b s = .ok (s.setMem (s.mem.write a b))) ∨
      (memSize ≤ a ∧ memWrite a b s = .error (.memoryOutOfRange a)) := by
  rcases Nat.lt_or_ge a memSize with h | h
  · exact .inl ⟨h, memWrite_eq_ok h⟩
  · exact .inr ⟨h, memWrite_eq_error h⟩

/-- Everything `memReadWord` can do (20_memory.md R54). -/
theorem memReadWord_cases (a : Nat) (s : State) :
    (a + 1 < memSize ∧ memReadWord a s = .ok (wordOfBytes (s.mem.read a) (s.mem.read (a + 1)))) ∨
      (a + 1 = memSize ∧ memReadWord a s = .error (.memoryOutOfRange (a + 1))) ∨
        (memSize ≤ a ∧ memReadWord a s = .error (.memoryOutOfRange a)) := by
  rcases Nat.lt_or_ge (a + 1) memSize with h | h
  · refine .inl ⟨h, ?_⟩
    simp [memReadWord, memRead_eq_ok (show a < memSize by omega), memRead_eq_ok h, bind, Except.bind,
      pure, Except.pure]
  · rcases Nat.lt_or_ge a memSize with h' | h'
    · refine .inr (.inl ⟨by omega, ?_⟩)
      simp [memReadWord, memRead_eq_ok h', memRead_eq_error h, bind, Except.bind]
    · refine .inr (.inr ⟨h', ?_⟩)
      simp [memReadWord, memRead_eq_error h', bind, Except.bind]

end Sys2Proof.Machine
end

