-- ==== Sys2Proof/Laws/Ops.lean ====
section
/-! SUPPORT. One lemma for each shared operation, saying once everything it can do; later proofs cite these and do
not unfold the operation. -/
namespace Sys2Proof.Machine

/-! ## Answers -/

@[simp] theorem except_ok_bind {α β : Type} (a : α) (f : α → Except Fault β) :
    (Except.ok a >>= f) = f a := rfl

@[simp] theorem except_error_bind {α β : Type} (e : Fault) (f : α → Except Fault β) :
    ((Except.error e : Except Fault α) >>= f) = .error e := rfl

@[simp] theorem except_pure {α : Type} (a : α) : (pure a : Except Fault α) = .ok a := rfl

/-- A bind answers exactly when both parts do. -/
theorem bind_eq_ok {α β : Type} {x : Except Fault α} {f : α → Except Fault β} {r : β} :
    (x >>= f) = .ok r ↔ ∃ a, x = .ok a ∧ f a = .ok r := by
  cases x <;> simp

/-- A bind raises what its first part raises, else what its second part raises. -/
theorem bind_eq_error {α β : Type} {x : Except Fault α} {f : α → Except Fault β} {e : Fault} :
    (x >>= f) = .error e ↔ x = .error e ∨ ∃ a, x = .ok a ∧ f a = .error e := by
  cases x <;> simp

@[simp] theorem finish_ok (t : State) : finish (.ok t) = .next t := rfl

@[simp] theorem finish_error (f : Fault) : finish (.error f) = .fault f := rfl

theorem finish_eq_next {r : Except Fault State} {t : State} : finish r = .next t ↔ r = .ok t := by
  cases r <;> simp

theorem finish_eq_fault {r : Except Fault State} {f : Fault} : finish r = .fault f ↔ r = .error f := by
  cases r <;> simp

theorem finish_ne_refused (r : Except Fault State) (q : Refusal) : finish r ≠ .refused q := by
  cases r <;> simp

/-! ## Register reads -/

theorem readable_of_zero {s : State} (h : s.cfg.uninitPolicy = .zero) (item : Item) :
    s.readable item = true := by
  simp [State.readable, h]

@[simp] theorem readV_eq_ok {x : Reg} {s : State} (h : s.readable (.v x) = true) :
    readV x s = .ok (s.getV x) := by
  simp [readV, h]

theorem readV_eq_error {x : Reg} {s : State} (h : s.readable (.v x) = false) :
    readV x s = .error (.uninitialisedRead (.v x)) := by
  simp [readV, h]

theorem readV_eq_ok_iff {x : Reg} {s : State} {b : Byte} :
    readV x s = .ok b ↔ s.readable (.v x) = true ∧ b = s.getV x := by
  cases h : s.readable (.v x) <;> simp [readV, h, eq_comm]

@[simp] theorem readI_eq_ok {s : State} (h : s.readable .i = true) : readI s = .ok s.i := by
  simp [readI, h]

theorem readI_eq_error {s : State} (h : s.readable .i = false) :
    readI s = .error (.uninitialisedRead .i) := by
  simp [readI, h]

theorem readI_eq_ok_iff {s : State} {a : Word} : readI s = .ok a ↔ s.readable .i = true ∧ a = s.i := by
  cases h : s.readable .i <;> simp [readI, h, eq_comm]

@[simp] theorem readDT_eq_ok {s : State} (h : s.readable .dt = true) : readDT s = .ok s.dt := by
  simp [readDT, h]

theorem readDT_eq_error {s : State} (h : s.readable .dt = false) :
    readDT s = .error (.uninitialisedRead .dt) := by
  simp [readDT, h]

theorem readDT_eq_ok_iff {s : State} {b : Byte} :
    readDT s = .ok b ↔ s.readable .dt = true ∧ b = s.dt := by
  cases h : s.readable .dt <;> simp [readDT, h, eq_comm]

/-! ## The stack (10_state.md R27, R28) -/

/-- Everything `push` can do. -/
theorem push_cases (a : Word) (s : State) :
    (s.stack.length < stackDepth ∧ push a s = .ok (s.setStack (s.stack ++ [a]))) ∨
      (stackDepth ≤ s.stack.length ∧ push a s = .error (.stackOverflow s.opAddress)) := by
  rcases Nat.lt_or_ge s.stack.length stackDepth with h | h
  · exact .inl ⟨h, by simp [push, h]⟩
  · exact .inr ⟨h, by simp [push, Nat.not_lt.2 h]⟩

/-- Everything `pop` can do. -/
theorem pop_cases (s : State) :
    (∃ l a, s.stack = l ++ [a] ∧ pop s = .ok (a, s.setStack l)) ∨
      (s.stack = [] ∧ pop s = .error (.stackUnderflow s.opAddress)) := by
  rcases List.eq_nil_or_concat s.stack with h | ⟨l, a, h⟩
  · exact .inr ⟨h, by simp [pop, h]⟩
  · exact .inl ⟨l, a, by simpa using h, by simp [pop, h]⟩

/-! ## PC -/

@[simp] theorem State.advance_pc (s : State) : s.advance.pc = s.pc + 2 := rfl

@[simp] theorem State.rewind_pc (s : State) : s.rewind.pc = s.pc - 2 := rfl

@[simp] theorem State.opAddress_advance (s : State) : s.advance.opAddress = s.pc := by
  simp [State.opAddress]

@[simp] theorem State.rewind_advance (s : State) : s.advance.rewind = s := by
  simp [State.rewind, State.advance, State.setPC]

/-- A skip sets PC and nothing else (41_control_flow.md R128). -/
theorem State.skipIf_eq (taken : Bool) (s : State) :
    s.skipIf taken = s.setPC (if taken then s.pc + 2 else s.pc) := by
  cases taken <;> rfl

/-! ## The fetch (40_step_cycle.md R101) -/

/-- Everything the fetch can do. -/
theorem fetch_cases (s : State) :
    (s.pc.toNat + 1 < memSize ∧
        fetch s = .ok (wordOfBytes (s.mem.read s.pc.toNat) (s.mem.read (s.pc.toNat + 1)))) ∨
      (memSize ≤ s.pc.toNat + 1 ∧
        fetch s = .error (.memoryOutOfRange (max s.pc.toNat memSize))) := by
  rcases memReadWord_cases s.pc.toNat s with ⟨h, e⟩ | ⟨h, e⟩ | ⟨h, e⟩
  · exact .inl ⟨h, e⟩
  · exact .inr ⟨h.ge, by rw [fetch, e, h, max_eq_right (by omega)]⟩
  · exact .inr ⟨by omega, by rw [fetch, e, max_eq_left h]⟩

/-! ## The step (40_step_cycle.md R100) -/

theorem step_halted {s : State} {f : Fault} (h : s.halt = some f) : step s = .fault f := by
  simp [step, h]

theorem step_awaiting {s : State} {r : Reg} {p : WaitPhase} (hh : s.halt = none)
    (hx : s.execState = .awaitingKey r p) : step s = .next (waitCheck r p s) := by
  simp [step, hh, hx]

theorem step_running {s : State} (hh : s.halt = none) (hx : s.execState = .running) :
    step s = runInstruction s := by
  simp [step, hh, hx]

theorem runInstruction_instr {s : State} {i : Instr} (hp : s.pc.toNat + 1 < memSize)
    (hd : decode (wordOfBytes (s.mem.read s.pc.toNat) (s.mem.read (s.pc.toNat + 1))) = .instr i) :
    runInstruction s = exec i s.advance := by
  rcases fetch_cases s with ⟨_, e⟩ | ⟨h, _⟩
  · simp [runInstruction, e, hd]
  · omega

/-- Every answered step is a wait check or an executed instruction. -/
theorem step_eq_next {s t : State} (h : step s = .next t) :
    s.halt = none ∧
      ((∃ r p, s.execState = .awaitingKey r p ∧ t = waitCheck r p s) ∨
        (s.execState = .running ∧ s.pc.toNat + 1 < memSize ∧
          ∃ i, decode (wordOfBytes (s.mem.read s.pc.toNat) (s.mem.read (s.pc.toNat + 1))) = .instr i ∧
            exec i s.advance = .next t)) := by
  cases hh : s.halt with
  | some f => rw [step_halted hh] at h; cases h
  | none =>
    refine ⟨rfl, ?_⟩
    cases hx : s.execState with
    | awaitingKey r p =>
      rw [step_awaiting hh hx] at h
      cases h
      exact .inl ⟨r, p, rfl, rfl⟩
    | running =>
      rw [step_running hh hx, runInstruction] at h
      rcases fetch_cases s with ⟨hp, e⟩ | ⟨_, e⟩
      · rw [e] at h
        cases hd : decode (wordOfBytes (s.mem.read s.pc.toNat) (s.mem.read (s.pc.toNat + 1))) with
        | instr i => exact .inr ⟨rfl, hp, i, rfl, by simpa [hd] using h⟩
        | unknown w => simp [hd, raiseFatal] at h
      · simp [e, raiseFatal] at h

/-! ## The key wait (40_step_cycle.md R104) -/

theorem mem_allKeys (k : Key) : k ∈ allKeys := by
  refine List.mem_map.2 ⟨k.toNat, List.mem_range.2 k.isLt, ?_⟩
  simp

/-- A key found has a press edge, and no key of a lower number has one. -/
theorem firstPressEdge_eq_some {s : State} {k : Key} (h : s.firstPressEdge = some k) :
    s.pressEdge k = true ∧ ∀ j, j.toNat < k.toNat → s.pressEdge j = false := by
  have hk := List.find?_some h
  refine ⟨hk, fun j hj => ?_⟩
  unfold State.firstPressEdge at h
  rw [List.find?_eq_some_iff_getElem] at h
  obtain ⟨_, n, hn, e, hlt⟩ := h
  have hn16 : n < 16 := by simpa [allKeys] using hn
  have hkn : k.toNat = n := by
    rw [← e]; simp [allKeys]; omega
  have := hlt j.toNat (by omega)
  simpa [allKeys] using this

theorem firstPressEdge_eq_none {s : State} :
    s.firstPressEdge = none ↔ ∀ k, s.pressEdge k = false := by
  simp only [State.firstPressEdge, List.find?_eq_none, Bool.not_eq_true]
  exact ⟨fun h k => h k (mem_allKeys k), fun h k _ => h k⟩

/-- Everything a wait check can do. -/
theorem waitCheck_cases (r : Reg) (p : WaitPhase) (s : State) :
    (p = .waitingForPress ∧ ∃ k, s.firstPressEdge = some k ∧
        waitCheck r p s = (s.setV r (k.setWidth 8)).setExec (.awaitingKey r (.waitingForRelease k))) ∨
      (p = .waitingForPress ∧ s.firstPressEdge = none ∧ waitCheck r p s = s) ∨
      (∃ k, p = .waitingForRelease k ∧ s.pressed k = false ∧ waitCheck r p s = s.setExec .running) ∨
      (∃ k, p = .waitingForRelease k ∧ s.pressed k = true ∧ waitCheck r p s = s) := by
  cases p with
  | waitingForPress =>
    cases h : s.firstPressEdge with
    | some k => exact .inl ⟨rfl, k, rfl, by simp [waitCheck, h]⟩
    | none => exact .inr (.inl ⟨rfl, rfl, by simp [waitCheck, h]⟩)
  | waitingForRelease k =>
    cases h : s.pressed k
    · exact .inr (.inr (.inl ⟨k, rfl, h, by simp [waitCheck, h]⟩))
    · exact .inr (.inr (.inr ⟨k, rfl, h, by simp [waitCheck, h]⟩))

end Sys2Proof.Machine
end

