-- ==== Sys2Proof/Laws/Operands.lean ====
section
/-! SUPPORT. One lemma for each operand form and each shared operation of the meanings: flags, key indices, the
register transfers of FX55 and FX65, and the I advance. -/
namespace Sys2Proof.Machine

/-! ## Flags -/

theorem flagByte_eq_one {f : Bool} : flagByte f = 0x01#8 ↔ f = true := by cases f <;> decide

theorem flagByte_eq_zero {f : Bool} : flagByte f = 0x00#8 ↔ f = false := by cases f <;> decide

/-- The flag of a right shift is bit 0 of the source as a number (42_register_alu.md R149). -/
theorem shrFlag_toNat (a : Byte) : (flagByte (shrFlag a)).toNat = a.toNat % 2 := by
  simp only [flagByte, shrFlag, BitVec.getLsbD, Nat.testBit_zero, decide_eq_true_eq]
  split <;> simp <;> omega

/-- The flag of a left shift is bit 7 of the source as a number (42_register_alu.md R150). -/
theorem shlFlag_toNat (a : Byte) : (flagByte (shlFlag a)).toNat = a.toNat / 128 := by
  have h := a.isLt
  simp only [flagByte, shlFlag, BitVec.getLsbD, Nat.testBit_eq_decide_div_mod_eq, decide_eq_true_eq]
  split <;> simp <;> omega

theorem State.logicReset_eq (s : State) :
    s.logicReset = if s.cfg.qVfReset then s.setV 0xF#4 0x00#8 else s := rfl

/-! ## Addresses -/

theorem addrOperand_toNat (nnn : Addr) : (addrOperand nnn).toNat = nnn.toNat := by
  have h := nnn.isLt
  simp only [addrOperand, BitVec.toNat_setWidth]
  omega

theorem sysWord_toNat (nnn : Addr) : (sysWord nnn).toNat = nnn.toNat := by
  rw [sysWord, encode, packNNN_toNat]
  simp

theorem indexedTarget_toNat (nnn : Addr) (b : Byte) : (indexedTarget nnn b).toNat = nnn.toNat + b.toNat := by
  have h1 := nnn.isLt
  have h2 := b.isLt
  simp only [indexedTarget, BitVec.toNat_add, BitVec.toNat_setWidth]
  omega

theorem glyphAddress_toNat (b : Byte) : (glyphAddress b).toNat = 0x50 + 5 * b.toNat := by
  have h := b.isLt
  simp only [glyphAddress, BitVec.toNat_ofNat, fontBase]
  omega

/-! ## Key indices (45_timers_keys.md section 2) -/

/-- Everything `keyIndex` can do. -/
theorem keyIndex_cases (b : Byte) (s : State) :
    ((b.toNat ≤ 0xF ∨ s.cfg.keyIndexPolicy = .lowNibble) ∧ keyIndex b s = .ok (b.setWidth 4)) ∨
      (0xF < b.toNat ∧ s.cfg.keyIndexPolicy = .fault ∧
        keyIndex b s = .error (.keyIndexOutOfRange b)) := by
  by_cases h : b.toNat ≤ 0xF
  · exact .inl ⟨.inl h, by simp [keyIndex, h]⟩
  · cases hp : s.cfg.keyIndexPolicy
    · exact .inr ⟨by omega, rfl, by simp [keyIndex, h, hp]⟩
    · exact .inl ⟨.inr rfl, by simp [keyIndex, h, hp]⟩

/-! ## The I advance (43_memory_index.md R174, R175) -/

/-- The advance writes I or nothing. -/
theorem State.advanceIndex_cases (x : Reg) (s : State) :
    (s.cfg.qIndexIncrement = true ∧ s.advanceIndex x = s.setI (BitVec.ofNat 16 (s.i.toNat + x.toNat + 1))) ∨
      (s.cfg.qIndexIncrement = false ∧ s.advanceIndex x = s) := by
  cases h : s.cfg.qIndexIncrement
  · exact .inr ⟨rfl, by simp [State.advanceIndex, h]⟩
  · exact .inl ⟨rfl, by simp [State.advanceIndex, h]⟩

/-! ## The bulk store (43_memory_index.md R174) -/

/-- A bulk store that answers wrote memory and nothing else: the registers at the addresses I + k. -/
theorem storeRegs_eq_ok {i : Word} {count k : Nat} {s t : State} (h : storeRegs i count k s = .ok t) :
    ∃ m, t = s.setMem m ∧ (s.mem.wf = true → m.wf = true) ∧
      (∀ a, m.read a = if i.toNat + k ≤ a ∧ a < i.toNat + k + count
        then s.getV (BitVec.ofNat 4 (a - i.toNat)) else s.mem.read a) ∧
      (0 < count → i.toNat + k + count ≤ memSize) ∧
      ∀ j, k ≤ j → j < k + count → s.readable (.v (BitVec.ofNat 4 j)) = true := by
  induction count generalizing k s with
  | zero =>
    simp only [storeRegs, Except.ok.injEq] at h
    subst h
    exact ⟨s.mem, rfl, id, fun a => by rw [if_neg (by omega)], by omega, fun j _ _ => by omega⟩
  | succ n ih =>
    simp only [storeRegs, bind_eq_ok] at h
    obtain ⟨b, hb, u, hu, ht⟩ := h
    obtain ⟨hr, rfl⟩ := readV_eq_ok_iff.1 hb
    rcases memWrite_cases (dataAddress i k) (s.getV (BitVec.ofNat 4 k)) s with ⟨hlt, e⟩ | ⟨_, e⟩
    · rw [e] at hu
      cases hu
      obtain ⟨m, rfl, hwf, hread, hlast, hreg⟩ := ih ht
      refine ⟨m, rfl, fun hw => hwf (Memory.wf_write hlt _ hw), fun a => ?_, fun _ => ?_, fun j hj hj' => ?_⟩
      · rw [hread]
        simp only [dataAddress] at hlt ⊢
        by_cases h1 : i.toNat + (k + 1) ≤ a ∧ a < i.toNat + (k + 1) + n
        · rw [if_pos h1, if_pos (by omega)]; rfl
        · rw [if_neg h1]
          by_cases h2 : a = i.toNat + k
          · subst h2
            rw [if_pos (by omega)]
            simp
          · rw [if_neg (by omega)]
            simp [Memory.read_write_other h2]
      · simp only [dataAddress] at hlt
        by_cases hn : 0 < n
        · have := hlast hn; omega
        · omega
      · by_cases hjk : j = k
        · subst hjk; exact hr
        · exact hreg j (by omega) (by omega)
    · rw [e] at hu; cases hu

/-- A bulk store whose registers are readable and whose addresses are in the memory answers. -/
theorem storeRegs_completes {i : Word} {count k : Nat} {s : State}
    (hr : ∀ j, k ≤ j → j < k + count → s.readable (.v (BitVec.ofNat 4 j)) = true)
    (ha : i.toNat + k + count ≤ memSize) : ∃ t, storeRegs i count k s = .ok t := by
  induction count generalizing k s with
  | zero => exact ⟨s, rfl⟩
  | succ n ih =>
    simp only [storeRegs, readV_eq_ok (hr k (by omega) (by omega)), except_ok_bind]
    rw [memWrite_eq_ok (by simp only [dataAddress]; omega), except_ok_bind]
    exact ih (fun j h1 h2 => by simpa using hr j (by omega) (by omega)) (by omega)

/-- A bulk store with readable registers that leaves the memory raises at the first address outside it. -/
theorem storeRegs_out_of_range {i : Word} {count k : Nat} {s : State}
    (hr : ∀ j, k ≤ j → j < k + count → s.readable (.v (BitVec.ofNat 4 j)) = true) (hc : 0 < count)
    (ha : memSize < i.toNat + k + count) :
    storeRegs i count k s = .error (.memoryOutOfRange (max (i.toNat + k) memSize)) := by
  induction count generalizing k s with
  | zero => omega
  | succ n ih =>
    simp only [storeRegs, readV_eq_ok (hr k (by omega) (by omega)), except_ok_bind]
    rcases Nat.lt_or_ge (dataAddress i k) memSize with h | h
    · rw [memWrite_eq_ok h, except_ok_bind]
      simp only [dataAddress] at h
      rw [ih (fun j h1 h2 => by simpa using hr j (by omega) (by omega)) (by omega) (by omega)]
      have e : max (i.toNat + (k + 1)) memSize = max (i.toNat + k) memSize := by omega
      rw [e]
    · rw [memWrite_eq_error h, except_error_bind]
      exact congrArg _ (congrArg _ (max_eq_left h).symm)

/-- A bulk store stops at the first register it may not read, when every address before that is in the memory. -/
theorem storeRegs_stops_at_read {i : Word} {count k m : Nat} {s : State} (hkm : k ≤ m) (hm : m < k + count)
    (hr : ∀ j, k ≤ j → j < m → s.readable (.v (BitVec.ofNat 4 j)) = true)
    (ha : ∀ j, k ≤ j → j < m → dataAddress i j < memSize) (hu : s.readable (.v (BitVec.ofNat 4 m)) = false) :
    storeRegs i count k s = .error (.uninitialisedRead (.v (BitVec.ofNat 4 m))) := by
  induction count generalizing k s with
  | zero => omega
  | succ n ih =>
    simp only [storeRegs]
    by_cases e : k = m
    · subst e; rw [readV_eq_error hu, except_error_bind]
    · rw [readV_eq_ok (hr k (by omega) (by omega)), except_ok_bind,
        memWrite_eq_ok (ha k (by omega) (by omega)), except_ok_bind]
      exact ih (by omega) (by omega) (fun j h1 h2 => hr j (by omega) h2) (fun j h1 h2 => ha j (by omega) h2) hu

/-- A bulk store stops at the first address outside the memory, when every register up to that is readable. -/
theorem storeRegs_stops_at_address {i : Word} {count k m : Nat} {s : State} (hkm : k ≤ m) (hm : m < k + count)
    (hr : ∀ j, k ≤ j → j ≤ m → s.readable (.v (BitVec.ofNat 4 j)) = true)
    (ha : ∀ j, k ≤ j → j < m → dataAddress i j < memSize) (hu : memSize ≤ dataAddress i m) :
    storeRegs i count k s = .error (.memoryOutOfRange (dataAddress i m)) := by
  induction count generalizing k s with
  | zero => omega
  | succ n ih =>
    simp only [storeRegs]
    rw [readV_eq_ok (hr k (by omega) (by omega)), except_ok_bind]
    by_cases e : k = m
    · subst e; rw [memWrite_eq_error hu, except_error_bind]
    · rw [memWrite_eq_ok (ha k (by omega) (by omega)), except_ok_bind]
      exact ih (by omega) (by omega) (fun j h1 h2 => hr j (by omega) h2) (fun j h1 h2 => ha j (by omega) h2)

/-! ## The bulk load (43_memory_index.md R175) -/

/-- A bulk load that answers wrote registers and nothing else: register j from the address I + j. -/
theorem loadRegs_eq_ok {i : Word} {count k : Nat} {s t : State} (hk : k + count ≤ 16)
    (h : loadRegs i count k s = .ok t) :
    ∃ v w, t = { s with v := v, written := w } ∧
      (∀ r : Reg, t.getV r = if k ≤ r.toNat ∧ r.toNat < k + count
        then s.mem.read (i.toNat + r.toNat) else s.getV r) ∧
      (∀ r : Reg, w.has (.v r) = if k ≤ r.toNat ∧ r.toNat < k + count then true else s.written.has (.v r)) ∧
      (w.has .i = s.written.has .i ∧ w.has .dt = s.written.has .dt ∧ w.has .st = s.written.has .st) ∧
      (0 < count → i.toNat + k + count ≤ memSize) := by
  induction count generalizing k s with
  | zero =>
    simp only [loadRegs, Except.ok.injEq] at h
    subst h
    exact ⟨s.v, s.written, rfl, fun r => by rw [if_neg (by omega)], fun r => by rw [if_neg (by omega)],
      ⟨rfl, rfl, rfl⟩, by omega⟩
  | succ n ih =>
    simp only [loadRegs, bind_eq_ok] at h
    obtain ⟨b, hb, ht⟩ := h
    rcases Nat.lt_or_ge (dataAddress i k) memSize with hlt | hge
    · rw [memRead_eq_ok hlt] at hb
      cases hb
      obtain ⟨v, w, rfl, hv, hw, hw', hlast⟩ := ih (by omega) ht
      have hknat : (BitVec.ofNat 4 k).toNat = k := by simp; omega
      have hne : ∀ r : Reg, r.toNat ≠ k → BitVec.ofNat 4 k ≠ r := by
        rintro r h rfl; exact h hknat
      refine ⟨v, w, rfl, fun r => ?_, fun r => ?_, ?_, fun _ => ?_⟩
      · rw [hv]
        by_cases h1 : k + 1 ≤ r.toNat ∧ r.toNat < k + 1 + n
        · rw [if_pos h1, if_pos (by omega)]; rfl
        · rw [if_neg h1]
          by_cases h2 : r.toNat = k
          · have e : BitVec.ofNat 4 k = r := BitVec.eq_of_toNat_eq (by rw [hknat, h2])
            rw [if_pos (by omega)]
            simp [e, dataAddress, h2]
          · rw [if_neg (by omega)]
            simp [hne r h2]
      · rw [hw]
        by_cases h1 : k + 1 ≤ r.toNat ∧ r.toNat < k + 1 + n
        · rw [if_pos h1, if_pos (by omega)]
        · rw [if_neg h1]
          by_cases h2 : r.toNat = k
          · have e : BitVec.ofNat 4 k = r := BitVec.eq_of_toNat_eq (by rw [hknat, h2])
            rw [if_pos (by omega)]
            simp [e]
          · rw [if_neg (by omega)]
            simp [hne r h2]
      · simpa using hw'
      · simp only [dataAddress] at hlt
        by_cases hn : 0 < n
        · have := hlast hn; omega
        · omega
    · rw [memRead_eq_error hge] at hb; cases hb

/-- A bulk load whose addresses are in the memory answers. -/
theorem loadRegs_completes {i : Word} {count k : Nat} {s : State} (ha : i.toNat + k + count ≤ memSize) :
    ∃ t, loadRegs i count k s = .ok t := by
  induction count generalizing k s with
  | zero => exact ⟨s, rfl⟩
  | succ n ih =>
    simp only [loadRegs]
    rw [memRead_eq_ok (by simp only [dataAddress]; omega), except_ok_bind]
    exact ih (by omega)

/-- A bulk load that leaves the memory raises at the first address outside it. -/
theorem loadRegs_out_of_range {i : Word} {count k : Nat} {s : State} (hc : 0 < count)
    (ha : memSize < i.toNat + k + count) :
    loadRegs i count k s = .error (.memoryOutOfRange (max (i.toNat + k) memSize)) := by
  induction count generalizing k s with
  | zero => omega
  | succ n ih =>
    simp only [loadRegs]
    rcases Nat.lt_or_ge (dataAddress i k) memSize with h | h
    · rw [memRead_eq_ok h, except_ok_bind]
      simp only [dataAddress] at h
      rw [ih (by omega) (by omega)]
      have e : max (i.toNat + (k + 1)) memSize = max (i.toNat + k) memSize := by omega
      rw [e]
    · rw [memRead_eq_error h, except_error_bind]
      exact congrArg _ (congrArg _ (max_eq_left h).symm)

/-! ## The sprite rows (44_display_random.md R192) -/

/-- The sprite bytes answer, unless I is read and must not be. -/
theorem spriteRows_eq_ok {n : Nibble} {s : State} (h : n = 0#4 ∨ s.readable .i = true) :
    spriteRows n s = .ok ((List.range n.toNat).map (fun r => s.mem.read (spriteAddress s.i r))) := by
  unfold spriteRows
  split
  · next hn => subst hn; rfl
  · next hn => simp [readI_eq_ok (h.resolve_left hn)]

/-- Everything `spriteRows` can do. -/
theorem spriteRows_eq_ok_iff {n : Nibble} {s : State} {rows : List Byte} :
    spriteRows n s = .ok rows ↔ (n = 0#4 ∨ s.readable .i = true) ∧
      rows = (List.range n.toNat).map (fun r => s.mem.read (spriteAddress s.i r)) := by
  constructor
  · intro h
    by_cases hn : n = 0#4 ∨ s.readable .i = true
    · rw [spriteRows_eq_ok hn] at h; cases h; exact ⟨hn, rfl⟩
    · obtain ⟨h0, hr⟩ := not_or.1 hn
      rw [spriteRows, if_neg h0, readI_eq_error (by simpa using hr)] at h
      cases h
  · rintro ⟨h, rfl⟩; exact spriteRows_eq_ok h

end Sys2Proof.Machine
end

