-- ==== Sys2Proof/Laws/Blit.lean ====
section
/-! SUPPORT. What the blit does, cell by cell (44_display_random.md R192, R194, R195): each cell the sprite covers is
flipped once, every other cell stays, and the collision flag tells whether a covered cell was on. -/
namespace Sys2Proof.Machine

/-- The value a flip gives a cell. -/
def flipped (b : Byte) : Byte := if b = 255#8 then 0#8 else 255#8

theorem flipped_flipped {b : Byte} (h : b = 0#8 ∨ b = 255#8) : flipped (flipped b) = b := by
  rcases h with rfl | rfl <;> decide

theorem flipped_on_off (b : Byte) : flipped b = 0#8 ∨ flipped b = 255#8 := by
  by_cases h : b = 255#8 <;> simp [flipped, h]

/-! ## Cells -/

@[simp] theorem Display.cell_setCell (r r' : Fin 32) (c c' : Fin 64) (b : Byte) (d : Display) :
    (d.setCell r c b).cell r' c' = if r = r' ∧ c = c' then b else d.cell r' c' := by
  unfold Display.cell Display.setCell
  by_cases hr : r = r'
  · subst hr
    by_cases hc : c = c'
    · subst hc; simp
    · have : c.val ≠ c'.val := fun e => hc (Fin.ext e)
      simp [hc, this]
  · have : r.val ≠ r'.val := fun e => hr (Fin.ext e)
    simp [hr, this]

/-- A display is well formed exactly when each cell is on or off. -/
theorem Display.wf_iff (d : Display) :
    d.wf = true ↔ ∀ r c, d.cell r c = 0#8 ∨ d.cell r c = 255#8 := by
  simp only [Display.wf, List.all_eq_true, Vector.mem_toList_iff, Bool.or_eq_true, beq_iff_eq, Display.cell]
  constructor
  · intro h r c
    exact h _ (Vector.getElem_mem r.isLt) _ (Vector.getElem_mem c.isLt)
  · intro h row hrow b hb
    obtain ⟨r, hr, rfl⟩ := Vector.mem_iff_getElem.1 hrow
    obtain ⟨c, hc, rfl⟩ := Vector.mem_iff_getElem.1 hb
    exact h ⟨r, hr⟩ ⟨c, hc⟩

theorem Display.ext_cell {d e : Display} (h : ∀ r c, d.cell r c = e.cell r c) : d = e := by
  apply Vector.ext
  intro r hr
  apply Vector.ext
  intro c hc
  exact h ⟨r, hr⟩ ⟨c, hc⟩

@[simp] theorem clearedDisplay_cell (r : Fin 32) (c : Fin 64) : clearedDisplay.cell r c = 0#8 := by
  simp [clearedDisplay, Display.cell]

theorem clearedDisplay_wf : clearedDisplay.wf = true :=
  (Display.wf_iff _).2 (fun r c => .inl (clearedDisplay_cell r c))

theorem flipCell_cell (r r' : Fin 32) (c c' : Fin 64) (acc : Display × Bool) :
    (flipCell r c acc).1.cell r' c' =
      if r = r' ∧ c = c' then flipped (acc.1.cell r' c') else acc.1.cell r' c' := by
  unfold flipCell flipped
  by_cases h : acc.1.cell r c = 255#8
  · by_cases e : r = r' ∧ c = c'
    · obtain ⟨rfl, rfl⟩ := e; simp [h]
    · simp [h, e]
  · by_cases e : r = r' ∧ c = c'
    · obtain ⟨rfl, rfl⟩ := e; simp [h]
    · simp [h, e]

theorem flipCell_flag (r : Fin 32) (c : Fin 64) (acc : Display × Bool) :
    (flipCell r c acc).2 = true ↔ acc.2 = true ∨ acc.1.cell r c = 255#8 := by
  unfold flipCell
  by_cases h : acc.1.cell r c = 255#8 <;> simp [h]

/-! ## One sprite byte -/

/-- A 1 among the `m` leftmost bits of the byte falls on the column. -/
def byteCovers (x0 : Nat) (bits : Byte) (m : Nat) (col : Fin 64) : Prop :=
  ∃ c < m, (x0 + c) % 64 = col.val ∧ bits.getLsbD (7 - c) = true

/-- What one blit step of `m` pixels, or of a whole sprite, does to a display: it flips each covered cell once. -/
structure Flips (covers : Fin 32 → Fin 64 → Prop) (acc acc' : Display × Bool) : Prop where
  on : ∀ r c, covers r c → acc'.1.cell r c = flipped (acc.1.cell r c)
  off : ∀ r c, ¬covers r c → acc'.1.cell r c = acc.1.cell r c
  flag : acc'.2 = true ↔ acc.2 = true ∨ ∃ r c, covers r c ∧ acc.1.cell r c = 255#8

theorem Flips.none {acc : Display × Bool} {covers : Fin 32 → Fin 64 → Prop} (h : ∀ r c, ¬covers r c) :
    Flips covers acc acc :=
  ⟨fun r c hc => absurd hc (h r c), fun _ _ _ => rfl, by simp [h]⟩

/-- Two blit steps that cover no cell in common compose. -/
theorem Flips.trans {p q : Fin 32 → Fin 64 → Prop} {a b e : Display × Bool} (h1 : Flips p a b)
    (h2 : Flips q b e) (hd : ∀ r c, p r c → ¬q r c) : Flips (fun r c => p r c ∨ q r c) a e := by
  refine ⟨fun r c hpq => ?_, fun r c hpq => ?_, ?_⟩
  · by_cases hp : p r c
    · rw [h2.off r c (hd r c hp), h1.on r c hp]
    · rw [h2.on r c (hpq.resolve_left hp), h1.off r c hp]
  · obtain ⟨hp, hq⟩ := not_or.1 hpq
    rw [h2.off r c hq, h1.off r c hp]
  · rw [h2.flag, h1.flag]
    constructor
    · rintro ((h | ⟨r, c, hp, h⟩) | ⟨r, c, hq, h⟩)
      · exact .inl h
      · exact .inr ⟨r, c, .inl hp, h⟩
      · have hp : ¬p r c := fun hp => hd r c hp hq
        exact .inr ⟨r, c, .inr hq, by rwa [h1.off r c hp] at h⟩
    · rintro (h | ⟨r, c, hp | hq, h⟩)
      · exact .inl (.inl h)
      · exact .inl (.inr ⟨r, c, hp, h⟩)
      · have hp : ¬p r c := fun hp => hd r c hp hq
        exact .inr ⟨r, c, hq, by rwa [h1.off r c hp]⟩

theorem Flips.congr {p q : Fin 32 → Fin 64 → Prop} {a b : Display × Bool} (h : Flips p a b)
    (e : ∀ r c, p r c ↔ q r c) : Flips q a b := by
  have : p = q := by funext r c; exact propext (e r c)
  exact this ▸ h

theorem flipCell_flips (row : Fin 32) (col : Fin 64) (acc : Display × Bool) :
    Flips (fun r c => r = row ∧ c = col) acc (flipCell row col acc) := by
  refine ⟨?_, fun r c h => ?_, ?_⟩
  · rintro r c ⟨rfl, rfl⟩; simp [flipCell_cell]
  · rw [flipCell_cell, if_neg]
    rintro ⟨rfl, rfl⟩; exact h ⟨rfl, rfl⟩
  · rw [flipCell_flag]; simp

theorem blitByte_flips (row : Fin 32) (x0 : Nat) (bits : Byte) (acc : Display × Bool) :
    Flips (fun r c => r = row ∧ byteCovers x0 bits 8 c) acc (blitByte row x0 bits acc) := by
  suffices h : ∀ m, m ≤ 8 → Flips (fun r c => r = row ∧ byteCovers x0 bits m c) acc
      ((List.range m).foldl (fun acc c => if bits.getLsbD (7 - c) then
        flipCell row (spriteColumn x0 c) acc else acc) acc) from h 8 le_rfl
  intro m
  induction m with
  | zero => intro _; exact Flips.none (by rintro r c ⟨_, k, hk, _⟩; omega)
  | succ m ih =>
    intro hm
    have ih := ih (by omega)
    rw [List.range_succ, List.foldl_append, List.foldl_cons, List.foldl_nil]
    by_cases hb : bits.getLsbD (7 - m) = true
    · rw [if_pos hb]
      refine (ih.trans (flipCell_flips row (spriteColumn x0 m) _) ?_).congr fun r c => ?_
      · rintro r c ⟨_, k, hk, hc, _⟩ ⟨_, rfl⟩
        simp only [spriteColumn, Fin.val_ofNat] at hc
        omega
      · constructor
        · rintro (⟨rfl, k, hk, hc⟩ | ⟨rfl, rfl⟩)
          · exact ⟨rfl, k, by omega, hc⟩
          · exact ⟨rfl, m, by omega, by simp [spriteColumn], hb⟩
        · rintro ⟨rfl, k, hk, hc, hbit⟩
          by_cases e : k = m
          · subst e
            exact .inr ⟨rfl, Fin.ext (by simp [spriteColumn, hc])⟩
          · exact .inl ⟨rfl, k, by omega, hc, hbit⟩
    · rw [if_neg hb]
      refine ih.congr fun r c => ⟨?_, ?_⟩
      · rintro ⟨rfl, k, hk, hc⟩; exact ⟨rfl, k, by omega, hc⟩
      · rintro ⟨rfl, k, hk, hc, hbit⟩
        have : k ≠ m := by rintro rfl; exact hb hbit
        exact ⟨rfl, k, by omega, hc, hbit⟩

/-! ## The sprite -/

/-- The display row of a sprite row is the one it lands on. -/
theorem spriteRow_eq_some {clip : Bool} {y0 r : Nat} {row : Fin 32} :
    spriteRow clip (y0 + r) = some row ↔ rowLandsOn clip y0 r row := by
  unfold spriteRow rowLandsOn
  by_cases h : y0 + r < 32
  · simp [h, Fin.ext_iff, Nat.mod_eq_of_lt h]
  · cases clip <;> simp [h, Fin.ext_iff]

/-- Two of up to 32 consecutive sprite rows never land on the same display row. -/
theorem rowLandsOn_unique {clip : Bool} {y0 r r' : Nat} {row : Fin 32} (h : rowLandsOn clip y0 r row)
    (h' : rowLandsOn clip y0 r' row) (hd : r' < r + 32) (hd' : r < r' + 32) : r = r' := by
  unfold rowLandsOn at h h'
  split at h <;> split at h' <;> omega

theorem rowLandsOn_succ {clip : Bool} {y0 r : Nat} {row : Fin 32} :
    rowLandsOn clip (y0 + 1) r row ↔ rowLandsOn clip y0 (r + 1) row := by
  unfold rowLandsOn
  rw [show y0 + 1 + r = y0 + (r + 1) by omega]

theorem spriteCovers_succ {clip : Bool} {x0 y0 n : Nat} {bits : Nat → Byte} {row : Fin 32} {col : Fin 64} :
    spriteCovers clip x0 y0 (n + 1) bits row col ↔
      (rowLandsOn clip y0 0 row ∧ byteCovers x0 (bits 0) 8 col) ∨
        spriteCovers clip x0 (y0 + 1) n (fun r => bits (r + 1)) row col := by
  constructor
  · rintro ⟨r, hr, c, hc, hl, hm⟩
    cases r with
    | zero => exact .inl ⟨hl, c, hc, hm⟩
    | succ r => exact .inr ⟨r, by omega, c, hc, rowLandsOn_succ.2 hl, hm⟩
  · rintro (⟨hl, c, hc, hm⟩ | ⟨r, hr, c, hc, hl, hm⟩)
    · exact ⟨0, by omega, c, hc, hl, hm⟩
    · exact ⟨r + 1, by omega, c, hc, rowLandsOn_succ.1 hl, hm⟩

/-- The rows of a sprite of at most 32 rows flip exactly the cells it covers. -/
theorem blitRows_flips {clip : Bool} {x0 y0 : Nat} {rows : List Byte} (hn : rows.length ≤ 32)
    (acc : Display × Bool) :
    Flips (spriteCovers clip x0 y0 rows.length (fun r => rows.getD r 0#8)) acc
      (blitRows clip x0 y0 rows acc) := by
  induction rows generalizing y0 acc with
  | nil => exact Flips.none (by rintro r c ⟨k, hk, _⟩; simp at hk)
  | cons b rest ih =>
    simp only [List.length_cons] at hn
    have hrest := ih (y0 := y0 + 1) (by omega)
    have hfirst : Flips (fun r c => rowLandsOn clip y0 0 r ∧ byteCovers x0 b 8 c) acc
        (match spriteRow clip y0 with
         | some r => blitByte r x0 b acc
         | none => acc) := by
      cases h : spriteRow clip y0 with
      | some row =>
        have hl : ∀ r, rowLandsOn clip y0 0 r ↔ r = row := fun r => by
          rw [← spriteRow_eq_some, Nat.add_zero, h]; simp [eq_comm]
        exact (blitByte_flips row x0 b acc).congr fun r c => by rw [hl]
      | none =>
        refine Flips.none ?_
        rintro r c ⟨hl, _⟩
        rw [← spriteRow_eq_some, Nat.add_zero, h] at hl
        cases hl
    refine (hfirst.trans (hrest _) ?_).congr fun r c => ?_
    · rintro r c ⟨hl, _⟩ ⟨k, hk, _, _, hl', _⟩
      have := rowLandsOn_unique hl (rowLandsOn_succ.1 hl') (by omega) (by omega)
      omega
    · simp only [List.length_cons]
      rw [spriteCovers_succ]
      simp

/-- The blit of a sprite flips exactly the cells it covers, and its answer is true exactly when one was on. -/
theorem blit_flips {clip : Bool} {x0 y0 : Nat} {rows : List Byte} (hn : rows.length ≤ 32) (d : Display) :
    Flips (spriteCovers clip x0 y0 rows.length (fun r => rows.getD r 0#8)) (d, false)
      (blit clip x0 y0 rows d) :=
  blitRows_flips hn (d, false)

/-- The blit keeps every cell on or off. -/
theorem Flips.wf {p : Fin 32 → Fin 64 → Prop} {a b : Display × Bool} (h : Flips p a b)
    (hw : a.1.wf = true) : b.1.wf = true := by
  rw [Display.wf_iff] at hw ⊢
  intro r c
  by_cases hp : p r c
  · rw [h.on r c hp]; exact flipped_on_off _
  · rw [h.off r c hp]; exact hw r c

end Sys2Proof.Machine
end

