-- ==== Sys2Proof/Laws/Frame.lean ====
section
/-! SUPPORT. Frames: one lemma for each update and each shared operation, saying what it leaves unchanged, and how
frames compose. -/
namespace Sys2Proof.Machine

theorem SameExcept.refl (regs : List Reg) (parts : List Part) (s : State) : SameExcept regs parts s s :=
  ⟨fun _ _ => rfl, fun _ _ => rfl, fun _ => ⟨rfl, rfl⟩, fun _ => ⟨rfl, rfl⟩, fun _ => ⟨rfl, rfl⟩,
    fun _ => rfl, fun _ => rfl, fun _ _ => rfl, fun _ => rfl, fun _ => rfl, fun _ => rfl, fun _ => rfl,
    rfl, rfl, rfl, rfl⟩

/-- A frame that allows more. -/
theorem SameExcept.mono {regs regs' : List Reg} {parts parts' : List Part} {s t : State}
    (h : SameExcept regs parts s t) (hr : regs ⊆ regs') (hp : parts ⊆ parts') :
    SameExcept regs' parts' s t where
  v r hn := h.v r (fun m => hn (hr m))
  writtenV r hn := h.writtenV r (fun m => hn (hr m))
  i hn := h.i (fun m => hn (hp m))
  dt hn := h.dt (fun m => hn (hp m))
  st hn := h.st (fun m => hn (hp m))
  pc hn := h.pc (fun m => hn (hp m))
  stack hn := h.stack (fun m => hn (hp m))
  mem hn := h.mem (fun m => hn (hp m))
  disp hn := h.disp (fun m => hn (hp m))
  execState hn := h.execState (fun m => hn (hp m))
  redraw hn := h.redraw (fun m => hn (hp m))
  draws hn := h.draws (fun m => hn (hp m))
  keyCur := h.keyCur
  keyPrev := h.keyPrev
  halt := h.halt
  cfg := h.cfg

/-- Frames of two operations in a row. -/
theorem SameExcept.trans {regs : List Reg} {parts : List Part} {s t u : State}
    (h : SameExcept regs parts s t) (h' : SameExcept regs parts t u) : SameExcept regs parts s u where
  v r hn := (h'.v r hn).trans (h.v r hn)
  writtenV r hn := (h'.writtenV r hn).trans (h.writtenV r hn)
  i hn := ⟨(h'.i hn).1.trans (h.i hn).1, (h'.i hn).2.trans (h.i hn).2⟩
  dt hn := ⟨(h'.dt hn).1.trans (h.dt hn).1, (h'.dt hn).2.trans (h.dt hn).2⟩
  st hn := ⟨(h'.st hn).1.trans (h.st hn).1, (h'.st hn).2.trans (h.st hn).2⟩
  pc hn := (h'.pc hn).trans (h.pc hn)
  stack hn := (h'.stack hn).trans (h.stack hn)
  mem hn a := (h'.mem hn a).trans (h.mem hn a)
  disp hn := (h'.disp hn).trans (h.disp hn)
  execState hn := (h'.execState hn).trans (h.execState hn)
  redraw hn := (h'.redraw hn).trans (h.redraw hn)
  draws hn := (h'.draws hn).trans (h.draws hn)
  keyCur := h'.keyCur.trans h.keyCur
  keyPrev := h'.keyPrev.trans h.keyPrev
  halt := h'.halt.trans h.halt
  cfg := h'.cfg.trans h.cfg

/-! ## The updates -/

section
variable {regs : List Reg} {parts : List Part} (s : State)

theorem sameExcept_setV {x : Reg} (b : Byte) (h : x ∈ regs) : SameExcept regs parts s (s.setV x b) where
  v r hn := by
    have : x ≠ r := fun e => hn (e ▸ h)
    simp [this]
  writtenV r hn := by
    have : x ≠ r := fun e => hn (e ▸ h)
    simp [this]
  i _ := by simp
  dt _ := by simp
  st _ := by simp
  pc _ := rfl
  stack _ := rfl
  mem _ _ := rfl
  disp _ := rfl
  execState _ := rfl
  redraw _ := rfl
  draws _ := rfl
  keyCur := rfl
  keyPrev := rfl
  halt := rfl
  cfg := rfl

theorem sameExcept_setI (a : Word) (h : Part.i ∈ parts) : SameExcept regs parts s (s.setI a) := by
  constructor <;> simp [h]

theorem sameExcept_setDT (b : Byte) (h : Part.dt ∈ parts) : SameExcept regs parts s (s.setDT b) := by
  constructor <;> simp [h]

theorem sameExcept_setST (b : Byte) (h : Part.st ∈ parts) : SameExcept regs parts s (s.setST b) := by
  constructor <;> simp [h]

theorem sameExcept_setPC (a : Word) (h : Part.pc ∈ parts) : SameExcept regs parts s (s.setPC a) := by
  constructor <;> simp [h]

theorem sameExcept_setStack (l : List Word) (h : Part.stack ∈ parts) :
    SameExcept regs parts s (s.setStack l) := by
  constructor <;> simp [h]

theorem sameExcept_setMem (m : Memory) (h : Part.mem ∈ parts) : SameExcept regs parts s (s.setMem m) := by
  constructor <;> simp [h]

theorem sameExcept_setDisp (d : Display) (h : Part.disp ∈ parts) :
    SameExcept regs parts s (s.setDisp d) := by
  constructor <;> simp [h]

theorem sameExcept_setExec (e : ExecState) (h : Part.execState ∈ parts) :
    SameExcept regs parts s (s.setExec e) := by
  constructor <;> simp [h]

theorem sameExcept_setRedraw (b : Bool) (h : Part.redraw ∈ parts) :
    SameExcept regs parts s (s.setRedraw b) := by
  constructor <;> simp [h]

theorem sameExcept_countDraw (h : Part.draws ∈ parts) : SameExcept regs parts s s.countDraw := by
  constructor <;> simp [h]

/-! ## The shared operations -/

theorem sameExcept_setFlag (f : Bool) (h : 0xF#4 ∈ regs) : SameExcept regs parts s (s.setFlag f) :=
  sameExcept_setV s _ h

theorem sameExcept_skipIf (taken : Bool) (h : Part.pc ∈ parts) : SameExcept regs parts s (s.skipIf taken) := by
  rw [State.skipIf_eq]; exact sameExcept_setPC s _ h

theorem sameExcept_advanceIndex (x : Reg) (h : s.cfg.qIndexIncrement = true → Part.i ∈ parts) :
    SameExcept regs parts s (s.advanceIndex x) := by
  rcases State.advanceIndex_cases x s with ⟨hq, e⟩ | ⟨_, e⟩ <;> rw [e]
  · exact sameExcept_setI s _ (h hq)
  · exact SameExcept.refl _ _ s

theorem sameExcept_loadRegs {i : Word} {count k : Nat} {t : State} (hk : k + count ≤ 16)
    (hregs : ∀ r : Reg, k ≤ r.toNat → r.toNat < k + count → r ∈ regs)
    (h : loadRegs i count k s = .ok t) : SameExcept regs parts s t := by
  obtain ⟨v, w, rfl, hv, hw, ⟨hi, hd, hs⟩, _⟩ := loadRegs_eq_ok hk h
  have hno : ∀ r, r ∉ regs → ¬(k ≤ r.toNat ∧ r.toNat < k + count) := fun r hn h => hn (hregs r h.1 h.2)
  exact ⟨fun r hn => by rw [hv, if_neg (hno r hn)], fun r hn => by rw [hw, if_neg (hno r hn)], fun _ => ⟨rfl, hi⟩,
    fun _ => ⟨rfl, hd⟩, fun _ => ⟨rfl, hs⟩, fun _ => rfl, fun _ => rfl, fun _ _ => rfl, fun _ => rfl,
    fun _ => rfl, fun _ => rfl, fun _ => rfl, rfl, rfl, rfl, rfl⟩

end

end Sys2Proof.Machine
end

