-- ==== Sys2Proof/Laws/Exec.lean ====
section
/-! SUPPORT. Everything an instruction can do when it answers: one inversion lemma for each meaning that is more than
one update, and from them the frame of every instruction. -/
namespace Sys2Proof.Machine

/-! ## Inversion of the meanings that read before they write -/

theorem execRet_next {s t : State} (h : execRet s = .next t) :
    ∃ l a, s.stack = l ++ [a] ∧ t = (s.setStack l).setPC a := by
  rcases pop_cases s with ⟨l, a, hs, e⟩ | ⟨_, e⟩
  · refine ⟨l, a, hs, ?_⟩
    simpa [execRet, e, eq_comm] using h
  · simp [execRet, e] at h

theorem execCall_next {nnn : Addr} {s t : State} (h : execCall nnn s = .next t) :
    s.stack.length < stackDepth ∧ t = (s.setStack (s.stack ++ [s.pc])).setPC (addrOperand nnn) := by
  rcases push_cases s.pc s with ⟨hl, e⟩ | ⟨_, e⟩
  · exact ⟨hl, by simpa [execCall, e, eq_comm] using h⟩
  · simp [execCall, e] at h

theorem logicOp_ok {f : Byte → Byte → Byte} {x y : Reg} {s t : State} (h : logicOp f x y s = .ok t) :
    t = (s.setV x (f (s.getV x) (s.getV y))).logicReset := by
  simp only [logicOp, bind_eq_ok, readV_eq_ok_iff] at h
  obtain ⟨_, ⟨_, rfl⟩, _, ⟨_, rfl⟩, h⟩ := h
  simpa [eq_comm] using h

/-- A memory write that answers wrote one byte. -/
theorem memWrite_eq_ok_iff {a : Nat} {b : Byte} {s t : State} :
    memWrite a b s = .ok t ↔ a < memSize ∧ t = s.setMem (s.mem.write a b) := by
  rcases memWrite_cases a b s with ⟨h, e⟩ | ⟨h, e⟩
  · simp [e, h, eq_comm]
  · simp [e, Nat.not_lt.2 h]

theorem execLdBVx_next {x : Reg} {s t : State} (h : execLdBVx x s = .next t) :
    dataAddress s.i 2 < memSize ∧
      t = s.setMem (((s.mem.write (dataAddress s.i 0) (BitVec.ofNat 8 ((s.getV x).toNat / 100))).write
        (dataAddress s.i 1) (BitVec.ofNat 8 ((s.getV x).toNat / 10 % 10))).write
        (dataAddress s.i 2) (BitVec.ofNat 8 ((s.getV x).toNat % 10))) := by
  simp only [execLdBVx, finish_eq_next, bind_eq_ok, readV_eq_ok_iff, readI_eq_ok_iff,
    memWrite_eq_ok_iff] at h
  obtain ⟨_, ⟨_, rfl⟩, _, ⟨_, rfl⟩, _, ⟨_, rfl⟩, _, ⟨_, rfl⟩, hlt, rfl⟩ := h
  exact ⟨hlt, rfl⟩

theorem execLdMemVx_next {x : Reg} {s t : State} (h : execLdMemVx x s = .next t) :
    ∃ u, storeRegs s.i (x.toNat + 1) 0 s = .ok u ∧ t = u.advanceIndex x := by
  simp only [execLdMemVx, finish_eq_next, bind_eq_ok, readI_eq_ok_iff] at h
  obtain ⟨_, ⟨_, rfl⟩, u, hu, h⟩ := h
  exact ⟨u, hu, by simpa [eq_comm] using h⟩

theorem execLdVxMem_next {x : Reg} {s t : State} (h : execLdVxMem x s = .next t) :
    ∃ u, loadRegs s.i (x.toNat + 1) 0 s = .ok u ∧ t = u.advanceIndex x := by
  simp only [execLdVxMem, finish_eq_next, bind_eq_ok, readI_eq_ok_iff] at h
  obtain ⟨_, ⟨_, rfl⟩, u, hu, h⟩ := h
  exact ⟨u, hu, by simpa [eq_comm] using h⟩

/-- The bytes of the sprite at I (44_display_random.md R192). -/
def spriteBytes (n : Nibble) (s : State) : List Byte :=
  (List.range n.toNat).map (fun r => s.mem.read (spriteAddress s.i r))

/-- The display and the collision of the sprite at I. -/
def drawn (x y : Reg) (n : Nibble) (s : State) : Display × Bool :=
  blit s.cfg.qDrawClip ((s.getV x).toNat % 64) ((s.getV y).toNat % 32) (spriteBytes n s) s.disp

theorem drawSprite_ok {x y : Reg} {n : Nibble} {s t : State} (h : drawSprite x y n s = .ok t) :
    t = ((s.setDisp (drawn x y n s).1).setFlag (drawn x y n s).2).setRedraw true := by
  simp only [drawSprite, bind_eq_ok, readV_eq_ok_iff, spriteRows_eq_ok_iff] at h
  obtain ⟨_, ⟨_, rfl⟩, _, ⟨_, rfl⟩, _, ⟨_, rfl⟩, h⟩ := h
  simpa [eq_comm, drawn, spriteBytes] using h

/-- What a draw flips, in the terms of `spriteCovers`. -/
theorem drawn_flips (x y : Reg) (n : Nibble) (s : State) :
    Flips (spriteCovers s.cfg.qDrawClip ((s.getV x).toNat % 64) ((s.getV y).toNat % 32) n.toNat
      (fun r => s.mem.read (spriteAddress s.i r))) (s.disp, false) (drawn x y n s) := by
  have hlen : (spriteBytes n s).length = n.toNat := by simp [spriteBytes]
  have hn : n.toNat < 16 := n.isLt
  refine (blit_flips (by rw [hlen]; omega) s.disp).congr fun r c => ?_
  rw [hlen]
  constructor <;> rintro ⟨k, hk, c', hc', hl, hm, hb⟩ <;>
    exact ⟨k, hk, c', hc', hl, hm, by simpa [spriteBytes, hk] using hb⟩

/-- Everything an answered DRW can do (44_display_random.md R191, R193). -/
theorem execDrw_next {x y : Reg} {n : Nibble} {s t : State} (h : execDrw x y n s = .next t) :
    (s.drawStalls = true ∧ t = s.rewind) ∨
      (s.drawStalls = false ∧
        t = ((s.setDisp (drawn x y n s).1).setFlag (drawn x y n s).2).setRedraw true) := by
  unfold execDrw at h
  split at h
  · next hs => exact .inl ⟨hs, by simpa [eq_comm] using h⟩
  · next hs => exact .inr ⟨by simpa using hs, drawSprite_ok (finish_eq_next.1 h)⟩

/-! ## The frame of every instruction -/

/-- The parts of the state an instruction may write, beside the V registers. -/
def partsWritten (cfg : Config) : Instr → List Part
  | .cls => [.disp]
  | .ret => [.pc, .stack]
  | .sys _ => []
  | .jp _ => [.pc]
  | .call _ => [.pc, .stack]
  | .seImm _ _ => [.pc]
  | .sneImm _ _ => [.pc]
  | .seReg _ _ => [.pc]
  | .ldImm _ _ => []
  | .addImm _ _ => []
  | .ldReg _ _ => []
  | .orReg _ _ => []
  | .andReg _ _ => []
  | .xorReg _ _ => []
  | .addReg _ _ => []
  | .subReg _ _ => []
  | .shr _ _ => []
  | .subn _ _ => []
  | .shl _ _ => []
  | .sneReg _ _ => [.pc]
  | .ldI _ => [.i]
  | .jpV0 _ => [.pc]
  | .rnd _ _ => [.draws]
  | .drw _ _ _ => [.pc, .disp, .redraw]
  | .skp _ => [.pc]
  | .sknp _ => [.pc]
  | .ldVxDT _ => []
  | .ldVxK _ => [.execState]
  | .ldDTVx _ => [.dt]
  | .ldSTVx _ => [.st]
  | .addIVx _ => [.i]
  | .ldFVx _ => [.i]
  | .ldBVx _ => [.mem]
  | .ldMemVx _ => if cfg.qIndexIncrement then [.mem, .i] else [.mem]
  | .ldVxMem _ => if cfg.qIndexIncrement then [.i] else []

/-- The V registers an instruction may write: its destinations, and VF where it writes the flag. -/
def regsWritten (cfg : Config) (i : Instr) : List Reg :=
  if writesFlag cfg i then 0xF#4 :: destinations i else destinations i

theorem mem_destinations_ldVxMem {x r : Reg} : r ∈ destinations (.ldVxMem x) ↔ r.toNat ≤ x.toNat := by
  simp only [destinations, List.mem_map, List.mem_range]
  constructor
  · rintro ⟨k, hk, rfl⟩; rw [BitVec.toNat_ofNat]; have := Nat.mod_le k (2 ^ 4); omega
  · intro h; exact ⟨r.toNat, by omega, by simp⟩

/-- The shape of a meaning that reads one register and then answers. -/
theorem readV_then {x : Reg} {f : Byte → Except Fault State} {s t : State}
    (h : finish (readV x s >>= f) = .next t) : f (s.getV x) = .ok t := by
  rw [finish_eq_next, bind_eq_ok] at h
  obtain ⟨a, ha, h⟩ := h
  exact (readV_eq_ok_iff.1 ha).2 ▸ h

theorem ok_of_pure {t u : State} (h : (pure u : Except Fault State) = .ok t) : t = u := by
  simpa [eq_comm] using h

theorem sameExcept_logicOp {f : Byte → Byte → Byte} {x y : Reg} {regs : List Reg} {parts : List Part}
    {s t : State} (hx : x ∈ regs) (hf : s.cfg.qVfReset = true → 0xF#4 ∈ regs)
    (h : logicOp f x y s = .ok t) : SameExcept regs parts s t := by
  rw [logicOp_ok h, State.logicReset_eq, State.setV_cfg]
  split
  · next hq => exact (sameExcept_setV s _ hx).trans (sameExcept_setV _ _ (hf hq))
  · exact sameExcept_setV s _ hx

/-- An instruction that answers leaves everything unchanged but what the spec lets it write. -/
theorem exec_frame {i : Instr} {s t : State} (h : exec i s = .next t) :
    SameExcept (regsWritten s.cfg i) (partsWritten s.cfg i) s t := by
  cases i <;> simp only [exec, regsWritten, writesFlag, destinations, partsWritten] at h ⊢
  case cls => cases h; exact sameExcept_setDisp s _ (by simp)
  case ret =>
    obtain ⟨l, a, _, rfl⟩ := execRet_next h
    exact (sameExcept_setStack s l (by simp)).trans (sameExcept_setPC _ a (by simp))
  case sys nnn =>
    unfold execSys at h
    split at h
    · cases h
    · cases h; exact SameExcept.refl _ _ s
  case jp nnn => cases h; exact sameExcept_setPC s _ (by simp)
  case call nnn =>
    obtain ⟨_, rfl⟩ := execCall_next h
    exact (sameExcept_setStack s _ (by simp)).trans (sameExcept_setPC _ _ (by simp))
  case seImm x kk => rw [ok_of_pure (readV_then h)]; exact sameExcept_skipIf s _ (by simp)
  case sneImm x kk => rw [ok_of_pure (readV_then h)]; exact sameExcept_skipIf s _ (by simp)
  case seReg x y =>
    have := readV_then h
    rw [← finish_eq_next] at this
    rw [ok_of_pure (readV_then this)]; exact sameExcept_skipIf s _ (by simp)
  case sneReg x y =>
    have := readV_then h
    rw [← finish_eq_next] at this
    rw [ok_of_pure (readV_then this)]; exact sameExcept_skipIf s _ (by simp)
  case ldImm x kk => cases h; exact sameExcept_setV s _ (by simp)
  case addImm x kk => rw [ok_of_pure (readV_then h)]; exact sameExcept_setV s _ (by simp)
  case ldReg x y => rw [ok_of_pure (readV_then h)]; exact sameExcept_setV s _ (by simp)
  case orReg x y => exact sameExcept_logicOp (by by_cases hq : s.cfg.qVfReset = true <;> simp [hq]) (fun hq => by simp [hq]) (finish_eq_next.1 h)
  case andReg x y => exact sameExcept_logicOp (by by_cases hq : s.cfg.qVfReset = true <;> simp [hq]) (fun hq => by simp [hq]) (finish_eq_next.1 h)
  case xorReg x y => exact sameExcept_logicOp (by by_cases hq : s.cfg.qVfReset = true <;> simp [hq]) (fun hq => by simp [hq]) (finish_eq_next.1 h)
  case addReg x y =>
    have := readV_then h
    rw [← finish_eq_next] at this
    rw [ok_of_pure (readV_then this)]
    exact (sameExcept_setV s _ (by simp)).trans (sameExcept_setFlag _ _ (by simp))
  case subReg x y =>
    have := readV_then h
    rw [← finish_eq_next] at this
    rw [ok_of_pure (readV_then this)]
    exact (sameExcept_setV s _ (by simp)).trans (sameExcept_setFlag _ _ (by simp))
  case subn x y =>
    have := readV_then h
    rw [← finish_eq_next] at this
    rw [ok_of_pure (readV_then this)]
    exact (sameExcept_setV s _ (by simp)).trans (sameExcept_setFlag _ _ (by simp))
  case shr x y =>
    rw [ok_of_pure (readV_then h)]
    exact (sameExcept_setV s _ (by simp)).trans (sameExcept_setFlag _ _ (by simp))
  case shl x y =>
    rw [ok_of_pure (readV_then h)]
    exact (sameExcept_setV s _ (by simp)).trans (sameExcept_setFlag _ _ (by simp))
  case ldI nnn => cases h; exact sameExcept_setI s _ (by simp)
  case jpV0 nnn => rw [ok_of_pure (readV_then h)]; exact sameExcept_setPC s _ (by simp)
  case rnd x kk =>
    cases h
    exact (sameExcept_setV s _ (by simp)).trans (sameExcept_countDraw _ (by simp))
  case drw x y n =>
    rcases execDrw_next h with ⟨_, rfl⟩ | ⟨_, rfl⟩
    · exact sameExcept_setPC s _ (by simp)
    · exact ((sameExcept_setDisp s _ (by simp)).trans (sameExcept_setFlag _ _ (by simp))).trans
        (sameExcept_setRedraw _ _ (by simp))
  case skp x =>
    obtain ⟨k, _, h⟩ := bind_eq_ok.1 (readV_then h)
    rw [ok_of_pure h]; exact sameExcept_skipIf s _ (by simp)
  case sknp x =>
    obtain ⟨k, _, h⟩ := bind_eq_ok.1 (readV_then h)
    rw [ok_of_pure h]; exact sameExcept_skipIf s _ (by simp)
  case ldVxDT x =>
    obtain ⟨a, _, h⟩ := bind_eq_ok.1 (finish_eq_next.1 h)
    rw [ok_of_pure h]; exact sameExcept_setV s _ (by simp)
  case ldVxK x => cases h; exact sameExcept_setExec s _ (by simp)
  case ldDTVx x => rw [ok_of_pure (readV_then h)]; exact sameExcept_setDT s _ (by simp)
  case ldSTVx x => rw [ok_of_pure (readV_then h)]; exact sameExcept_setST s _ (by simp)
  case addIVx x =>
    obtain ⟨i, _, h⟩ := bind_eq_ok.1 (finish_eq_next.1 h)
    rw [← finish_eq_next] at h
    rw [ok_of_pure (readV_then h)]; exact sameExcept_setI s _ (by simp)
  case ldFVx x => rw [ok_of_pure (readV_then h)]; exact sameExcept_setI s _ (by simp)
  case ldBVx x => obtain ⟨_, rfl⟩ := execLdBVx_next h; exact sameExcept_setMem s _ (by simp)
  case ldMemVx x =>
    obtain ⟨u, hu, rfl⟩ := execLdMemVx_next h
    obtain ⟨m, rfl, _⟩ := storeRegs_eq_ok hu
    refine (sameExcept_setMem s m (by split <;> simp)).trans (sameExcept_advanceIndex _ x fun hq => ?_)
    rw [State.setMem_cfg] at hq
    simp [hq]
  case ldVxMem x =>
    obtain ⟨u, hu, rfl⟩ := execLdVxMem_next h
    have hx : x.toNat < 16 := x.isLt
    have hf := sameExcept_loadRegs (regs := destinations (.ldVxMem x))
      (parts := if s.cfg.qIndexIncrement then [.i] else []) s (by omega)
      (fun r _ hr => mem_destinations_ldVxMem.2 (by omega)) hu
    refine hf.trans (sameExcept_advanceIndex _ x fun hq => ?_)
    rw [hf.cfg] at hq
    simp [hq]

/-! ## The data an instruction keeps well-formed -/

/-- An instruction that is no store leaves the memory's data as it is. -/
theorem exec_mem {i : Instr} {s t : State} (h : exec i s = .next t) (hm : Part.mem ∉ partsWritten s.cfg i) :
    t.mem = s.mem := by
  have hsk : ∀ b, (s.skipIf b).mem = s.mem := fun b => by rw [State.skipIf_eq]; rfl
  have hlr : ∀ (u : State), u.logicReset.mem = u.mem := fun u => by rw [State.logicReset_eq]; split <;> rfl
  cases i <;> simp only [exec] at h
  case cls => cases h; rfl
  case ret => obtain ⟨l, a, _, rfl⟩ := execRet_next h; rfl
  case sys nnn =>
    unfold execSys at h
    split at h
    · cases h
    · cases h; rfl
  case jp nnn => cases h; rfl
  case call nnn => obtain ⟨_, rfl⟩ := execCall_next h; rfl
  case seImm x kk => rw [ok_of_pure (readV_then h)]; exact hsk _
  case sneImm x kk => rw [ok_of_pure (readV_then h)]; exact hsk _
  case seReg x y => rw [ok_of_pure (readV_then (finish_eq_next.2 (readV_then h)))]; exact hsk _
  case sneReg x y => rw [ok_of_pure (readV_then (finish_eq_next.2 (readV_then h)))]; exact hsk _
  case ldImm x kk => cases h; rfl
  case addImm x kk => rw [ok_of_pure (readV_then h)]; rfl
  case ldReg x y => rw [ok_of_pure (readV_then h)]; rfl
  case orReg x y => rw [logicOp_ok (finish_eq_next.1 h)]; exact hlr _
  case andReg x y => rw [logicOp_ok (finish_eq_next.1 h)]; exact hlr _
  case xorReg x y => rw [logicOp_ok (finish_eq_next.1 h)]; exact hlr _
  case addReg x y => rw [ok_of_pure (readV_then (finish_eq_next.2 (readV_then h)))]; rfl
  case subReg x y => rw [ok_of_pure (readV_then (finish_eq_next.2 (readV_then h)))]; rfl
  case subn x y => rw [ok_of_pure (readV_then (finish_eq_next.2 (readV_then h)))]; rfl
  case shr x y => rw [ok_of_pure (readV_then h)]; rfl
  case shl x y => rw [ok_of_pure (readV_then h)]; rfl
  case ldI nnn => cases h; rfl
  case jpV0 nnn => rw [ok_of_pure (readV_then h)]; rfl
  case rnd x kk => cases h; rfl
  case drw x y n => rcases execDrw_next h with ⟨_, rfl⟩ | ⟨_, rfl⟩ <;> rfl
  case skp x =>
    obtain ⟨k, _, h⟩ := bind_eq_ok.1 (readV_then h)
    rw [ok_of_pure h]; exact hsk _
  case sknp x =>
    obtain ⟨k, _, h⟩ := bind_eq_ok.1 (readV_then h)
    rw [ok_of_pure h]; exact hsk _
  case ldVxDT x =>
    obtain ⟨a, _, h⟩ := bind_eq_ok.1 (finish_eq_next.1 h)
    rw [ok_of_pure h]; rfl
  case ldVxK x => cases h; rfl
  case ldDTVx x => rw [ok_of_pure (readV_then h)]; rfl
  case ldSTVx x => rw [ok_of_pure (readV_then h)]; rfl
  case addIVx x =>
    obtain ⟨i, _, h⟩ := bind_eq_ok.1 (finish_eq_next.1 h)
    rw [ok_of_pure (readV_then (finish_eq_next.2 h))]; rfl
  case ldFVx x => rw [ok_of_pure (readV_then h)]; rfl
  case ldBVx x => exact absurd (by simp [partsWritten]) hm
  case ldMemVx x => exact absurd (by simp only [partsWritten]; split <;> simp) hm
  case ldVxMem x =>
    obtain ⟨u, hu, rfl⟩ := execLdVxMem_next h
    have hx : x.toNat < 16 := x.isLt
    obtain ⟨v, w, rfl, _⟩ := loadRegs_eq_ok (by omega) hu
    rcases State.advanceIndex_cases x { s with v := v, written := w } with ⟨_, e⟩ | ⟨_, e⟩ <;> simp only [e, State.setI_mem]

/-- Every instruction keeps memory in its canonical form. -/
theorem exec_mem_wf {i : Instr} {s t : State} (h : exec i s = .next t) (hm : s.mem.wf = true) :
    t.mem.wf = true := by
  by_cases hp : Part.mem ∈ partsWritten s.cfg i
  · cases i <;> simp only [partsWritten] at hp <;> simp only [exec] at h
    case ldBVx x =>
      obtain ⟨ha, rfl⟩ := execLdBVx_next h
      simp only [dataAddress] at ha ⊢
      exact Memory.wf_write (by omega) _ (Memory.wf_write (by omega) _ (Memory.wf_write (by omega) _ hm))
    case ldMemVx x =>
      obtain ⟨u, hu, rfl⟩ := execLdMemVx_next h
      obtain ⟨m, rfl, hwf, _⟩ := storeRegs_eq_ok hu
      rcases State.advanceIndex_cases x (s.setMem m) with ⟨_, e⟩ | ⟨_, e⟩ <;> rw [e] <;> exact hwf hm
    all_goals exfalso; revert hp; simp
  · rw [exec_mem h hp]; exact hm

/-- Every instruction keeps every cell of the display on or off (10_state.md R30). -/
theorem exec_disp_wf {i : Instr} {s t : State} (h : exec i s = .next t) (hd : s.disp.wf = true) :
    t.disp.wf = true := by
  by_cases hp : Part.disp ∈ partsWritten s.cfg i
  · cases i <;> simp only [partsWritten] at hp <;> simp only [exec] at h
    case cls => cases h; exact clearedDisplay_wf
    case drw x y n =>
      rcases execDrw_next h with ⟨_, rfl⟩ | ⟨_, rfl⟩
      · exact hd
      · exact (drawn_flips x y n s).wf hd
    all_goals exfalso; revert hp; first | (simp; done) | (split <;> simp)
  · rw [(exec_frame h).disp hp]; exact hd

end Sys2Proof.Machine
end

