-- ==== Sys2Proof/Laws/Driver.lean ====
section
/-! SUPPORT. What the host's operations and the boot can do: the countdown, the schedule, the font's bytes. -/
namespace Sys2Proof.Machine

@[simp] theorem State.afterFatal_halt (f : Fault) (s : State) : (s.afterFatal f).halt = some f := rfl
@[simp] theorem State.afterFatal_cfg (f : Fault) (s : State) : (s.afterFatal f).cfg = s.cfg := rfl

/-- The countdown goes toward zero and stays there (60_exceptions.md R243). -/
theorem countDown_toNat (b : Byte) : (countDown b).toNat = b.toNat - 1 := by
  have := b.isLt
  simp [countDown]
  omega

/-- A tick writes the timers, each when it is not zero. -/
theorem State.timerTick_cases (s : State) :
    s.timerTick = s ∨ s.timerTick = s.setDT (countDown s.dt) ∨ s.timerTick = s.setST (countDown s.st) ∨
      s.timerTick = (s.setDT (countDown s.dt)).setST (countDown s.st) := by
  unfold State.timerTick
  by_cases h1 : s.dt.toNat > 0 <;> by_cases h2 : s.st.toNat > 0 <;> simp [h1, h2]

/-- A schedule of one more call: its first call answered, and the rest ran from there. -/
theorem runMoves_cons_next {m : Move} {ms : List Move} {s t : State} :
    runMoves (m :: ms) s = .next t ↔ ∃ u, s.move m = .next u ∧ runMoves ms u = .next t := by
  rw [runMoves]
  cases s.move m <;> simp

/-- A property that every answered call keeps holds after every schedule. -/
theorem runMoves_keeps {P : State → Prop} (hstep : ∀ (m : Move) (s t : State), P s → s.move m = .next t → P t)
    {ms : List Move} {s t : State} (hs : P s) (h : runMoves ms s = .next t) : P t := by
  induction ms generalizing s with
  | nil => cases h; exact hs
  | cons m ms ih =>
    obtain ⟨u, hu, ht⟩ := runMoves_cons_next.1 h
    exact ih (hstep m s u hs hu) ht

/-- The length of rows of m bytes laid end to end. -/
theorem length_flatRows {m : Nat} (rows : List (Vector Byte m)) :
    (rows.flatMap Vector.toList).length = m * rows.length := by
  induction rows with
  | nil => simp
  | cons r rs ih => simp [ih, Nat.mul_add, Nat.add_comm]

/-- Byte j of row d stands at position m * d + j. -/
theorem getElem?_flatRows {m d j : Nat} (rows : List (Vector Byte m)) (hd : d < rows.length) (hj : j < m) :
    (rows.flatMap Vector.toList)[m * d + j]? = some (rows[d][j]) := by
  induction rows generalizing d with
  | nil => simp at hd
  | cons r rs ih =>
    rw [List.flatMap_cons]
    cases d with
    | zero => rw [List.getElem?_append_left (by simpa using hj)]; simp [hj]
    | succ d =>
      rw [List.getElem?_append_right (by simp only [Vector.length_toList]; rw [Nat.mul_succ]; omega)]
      have e : m * (d + 1) + j - r.toList.length = m * d + j := by
        rw [Vector.length_toList, Nat.mul_succ]; omega
      rw [e, ih (by simpa using hd)]
      simp

theorem fontBytes_length (font : FontImage) : (fontBytes font).length = 80 := by
  rw [fontBytes, length_flatRows]; simp

/-- Byte j of glyph d is byte 5d + j of the font (70_reset_and_hazards.md R272). -/
theorem fontBytes_getElem? (font : FontImage) (d : Fin 16) (j : Fin 5) :
    (fontBytes font)[5 * d.val + j.val]? = some font[d][j] := by
  rw [fontBytes, getElem?_flatRows font.toList (by simp) j.isLt]
  simp

end Sys2Proof.Machine
end

