-- ==== Sys2Proof/Laws/PerInstr.lean ====
section
/-! SUPPORT. Facts about every instruction as syntax, one lemma for each constructor of `Instr`. -/
namespace Sys2Proof.Laws

/-! ## EncodesItsRow: the word of an instruction matches the row the table gives it (30_encoding.md R74) -/
namespace EncodesItsRow

/-- `(encode i & mask) = match` for the row of `i`. -/
def Statement (i : Instr) : Prop := matchesRow (encode i) (opcodeRow i) = true

theorem cls : Statement (.cls) := rfl

theorem ret : Statement (.ret) := rfl

theorem sys (nnn : Addr) : Statement (.sys nnn) := by
  simp [Statement, encode, opcodeRow, matchesRow, and_mask_class]
  decide

theorem jp (nnn : Addr) : Statement (.jp nnn) := by
  simp [Statement, encode, opcodeRow, matchesRow, and_mask_class]
  decide

theorem call (nnn : Addr) : Statement (.call nnn) := by
  simp [Statement, encode, opcodeRow, matchesRow, and_mask_class]
  decide

theorem seImm (x : Reg) (kk : Byte) : Statement (.seImm x kk) := by
  simp [Statement, encode, opcodeRow, matchesRow, and_mask_class]
  decide

theorem sneImm (x : Reg) (kk : Byte) : Statement (.sneImm x kk) := by
  simp [Statement, encode, opcodeRow, matchesRow, and_mask_class]
  decide

theorem seReg (x y : Reg) : Statement (.seReg x y) := by
  simp [Statement, encode, opcodeRow, matchesRow, and_mask_nibble]
  decide

theorem ldImm (x : Reg) (kk : Byte) : Statement (.ldImm x kk) := by
  simp [Statement, encode, opcodeRow, matchesRow, and_mask_class]
  decide

theorem addImm (x : Reg) (kk : Byte) : Statement (.addImm x kk) := by
  simp [Statement, encode, opcodeRow, matchesRow, and_mask_class]
  decide

theorem ldReg (x y : Reg) : Statement (.ldReg x y) := by
  simp [Statement, encode, opcodeRow, matchesRow, and_mask_nibble]
  decide

theorem orReg (x y : Reg) : Statement (.orReg x y) := by
  simp [Statement, encode, opcodeRow, matchesRow, and_mask_nibble]
  decide

theorem andReg (x y : Reg) : Statement (.andReg x y) := by
  simp [Statement, encode, opcodeRow, matchesRow, and_mask_nibble]
  decide

theorem xorReg (x y : Reg) : Statement (.xorReg x y) := by
  simp [Statement, encode, opcodeRow, matchesRow, and_mask_nibble]
  decide

theorem addReg (x y : Reg) : Statement (.addReg x y) := by
  simp [Statement, encode, opcodeRow, matchesRow, and_mask_nibble]
  decide

theorem subReg (x y : Reg) : Statement (.subReg x y) := by
  simp [Statement, encode, opcodeRow, matchesRow, and_mask_nibble]
  decide

theorem shr (x y : Reg) : Statement (.shr x y) := by
  simp [Statement, encode, opcodeRow, matchesRow, and_mask_nibble]
  decide

theorem subn (x y : Reg) : Statement (.subn x y) := by
  simp [Statement, encode, opcodeRow, matchesRow, and_mask_nibble]
  decide

theorem shl (x y : Reg) : Statement (.shl x y) := by
  simp [Statement, encode, opcodeRow, matchesRow, and_mask_nibble]
  decide

theorem sneReg (x y : Reg) : Statement (.sneReg x y) := by
  simp [Statement, encode, opcodeRow, matchesRow, and_mask_nibble]
  decide

theorem ldI (nnn : Addr) : Statement (.ldI nnn) := by
  simp [Statement, encode, opcodeRow, matchesRow, and_mask_class]
  decide

theorem jpV0 (nnn : Addr) : Statement (.jpV0 nnn) := by
  simp [Statement, encode, opcodeRow, matchesRow, and_mask_class]
  decide

theorem rnd (x : Reg) (kk : Byte) : Statement (.rnd x kk) := by
  simp [Statement, encode, opcodeRow, matchesRow, and_mask_class]
  decide

theorem drw (x y : Reg) (n : Nibble) : Statement (.drw x y n) := by
  simp [Statement, encode, opcodeRow, matchesRow, and_mask_class]
  decide

theorem skp (x : Reg) : Statement (.skp x) := by
  simp [Statement, encode, opcodeRow, matchesRow, and_mask_byte]
  decide

theorem sknp (x : Reg) : Statement (.sknp x) := by
  simp [Statement, encode, opcodeRow, matchesRow, and_mask_byte]
  decide

theorem ldVxDT (x : Reg) : Statement (.ldVxDT x) := by
  simp [Statement, encode, opcodeRow, matchesRow, and_mask_byte]
  decide

theorem ldVxK (x : Reg) : Statement (.ldVxK x) := by
  simp [Statement, encode, opcodeRow, matchesRow, and_mask_byte]
  decide

theorem ldDTVx (x : Reg) : Statement (.ldDTVx x) := by
  simp [Statement, encode, opcodeRow, matchesRow, and_mask_byte]
  decide

theorem ldSTVx (x : Reg) : Statement (.ldSTVx x) := by
  simp [Statement, encode, opcodeRow, matchesRow, and_mask_byte]
  decide

theorem addIVx (x : Reg) : Statement (.addIVx x) := by
  simp [Statement, encode, opcodeRow, matchesRow, and_mask_byte]
  decide

theorem ldFVx (x : Reg) : Statement (.ldFVx x) := by
  simp [Statement, encode, opcodeRow, matchesRow, and_mask_byte]
  decide

theorem ldBVx (x : Reg) : Statement (.ldBVx x) := by
  simp [Statement, encode, opcodeRow, matchesRow, and_mask_byte]
  decide

theorem ldMemVx (x : Reg) : Statement (.ldMemVx x) := by
  simp [Statement, encode, opcodeRow, matchesRow, and_mask_byte]
  decide

theorem ldVxMem (x : Reg) : Statement (.ldVxMem x) := by
  simp [Statement, encode, opcodeRow, matchesRow, and_mask_byte]
  decide

end EncodesItsRow

end Sys2Proof.Laws
end

