-- ==== Sys2Proof/Tests/Slice0.lean ====
section
/-! SUPPORT. The model's own tests. Every expected value is the spec's: the words of 30_encoding.md R74 and the vectors
of 95_test_vectors.md, whose ids are named. Then a witness for the hypotheses of every obligation. -/
namespace Sys2Proof.Tests
open Sys2Proof Sys2Proof.Machine

/-! ## Helpers -/

/-- A field of the next state. -/
def after {α : Type} (f : State → α) : Result → Option α
  | .next t => some (f t)
  | .fault _ => none
  | .refused _ => none

/-- The fatal error. -/
def faultOf : Result → Option Fault
  | .fault f => some f
  | .next _ => none
  | .refused _ => none

/-- The start of the vectors of 95_test_vectors.md: the instruction at PC, everything else as constructed. -/
def at_ (pc op : Word) : State :=
  let bytes := bytesOfWord op
  { State.reset with pc := pc, mem := State.reset.mem.writeBytes pc.toNat [bytes.1, bytes.2] }

/-- The instruction at 0x200. -/
def start (op : Word) : State := at_ 0x200 op

/-- Other parameters than the default ones. -/
def withCfg (f : Config → Config) (s : State) : State := { s with cfg := f s.cfg }

/-- More bytes in memory. -/
def withBytes (a : Nat) (bytes : List Byte) (s : State) : State := s.setMem (s.mem.writeBytes a bytes)

/-- The snapshot in which these keys are pressed. -/
def keys (ks : List Nat) : Keys := Vector.ofFn fun k => ks.contains k.val

/-- The machine under `UNINIT_POLICY = fault`. -/
def strict (s : State) : State := withCfg (fun c => { c with uninitPolicy := .fault }) s

/-! ## WellFormed: the ill-formed terms (30_encoding.md R75) -/

theorem test_sys_0E0_is_ill_formed : (Instr.sys 0x0E0).wellFormed = false := by decide
theorem test_sys_0EE_is_ill_formed : (Instr.sys 0x0EE).wellFormed = false := by decide
theorem test_sys_0E1_is_well_formed : (Instr.sys 0x0E1).wellFormed = true := by decide

/-! ## Decoding: one word for each constructor, written from the table of 30_encoding.md R74 -/

theorem test_decode_control : [0x00E0#16, 0x00EE, 0x00E1, 0x0000, 0x1ABC, 0x2ABC, 0x3ABC, 0x4ABC].map decode =
    [.instr .cls, .instr .ret, .instr (.sys 0x0E1), .instr (.sys 0x000), .instr (.jp 0xABC),
      .instr (.call 0xABC), .instr (.seImm 0xA 0xBC), .instr (.sneImm 0xA 0xBC)] := by decide

theorem test_decode_control_registers : [0x5AB0#16, 0x5000, 0x9AB0, 0xBABC].map decode =
    [.instr (.seReg 0xA 0xB), .instr (.seReg 0x0 0x0), .instr (.sneReg 0xA 0xB), .instr (.jpV0 0xABC)] := by
  decide

theorem test_decode_registers : [0x6102#16, 0x7ABC, 0x8AB0, 0x8AB1, 0x8AB2, 0x8AB3, 0x8AB4].map decode =
    [.instr (.ldImm 0x1 0x02), .instr (.addImm 0xA 0xBC), .instr (.ldReg 0xA 0xB), .instr (.orReg 0xA 0xB),
      .instr (.andReg 0xA 0xB), .instr (.xorReg 0xA 0xB), .instr (.addReg 0xA 0xB)] := by decide

theorem test_decode_arithmetic : [0x8AB5#16, 0x8AB6, 0x8AB7, 0x8ABE, 0x800E].map decode =
    [.instr (.subReg 0xA 0xB), .instr (.shr 0xA 0xB), .instr (.subn 0xA 0xB), .instr (.shl 0xA 0xB),
      .instr (.shl 0x0 0x0)] := by decide

theorem test_decode_index : [0xAABC#16, 0xFA1E, 0xFA29, 0xFA33, 0xFA55, 0xFF65].map decode =
    [.instr (.ldI 0xABC), .instr (.addIVx 0xA), .instr (.ldFVx 0xA), .instr (.ldBVx 0xA),
      .instr (.ldMemVx 0xA), .instr (.ldVxMem 0xF)] := by decide

theorem test_decode_display : [0xCABC#16, 0xD123, 0xD120].map decode =
    [.instr (.rnd 0xA 0xBC), .instr (.drw 0x1 0x2 0x3), .instr (.drw 0x1 0x2 0x0)] := by decide

theorem test_decode_timers_keys : [0xEA9E#16, 0xEAA1, 0xFA07, 0xFA0A, 0xFA15, 0xFA18].map decode =
    [.instr (.skp 0xA), .instr (.sknp 0xA), .instr (.ldVxDT 0xA), .instr (.ldVxK 0xA), .instr (.ldDTVx 0xA),
      .instr (.ldSTVx 0xA)] := by decide

/-- DEC6 to DEC8 and DEC10 to DEC13. -/
theorem test_decode_unknown : [0x5001#16, 0x8008, 0x800F, 0x9AB1, 0xE09F, 0xF000, 0xFFFF].map decode =
    [.unknown 0x5001, .unknown 0x8008, .unknown 0x800F, .unknown 0x9AB1, .unknown 0xE09F, .unknown 0xF000,
      .unknown 0xFFFF] := by decide

/-- E11: the byte 61 stands at the lower address. -/
theorem test_decode_bytes : decodeBytes [0x61, 0x02, 0x00] = .ok (.ldImm 0x1 0x02, [0x00]) := by decide
theorem test_decode_no_bytes : decodeBytes [0x61] = .error .truncated := by decide
theorem test_table_word : decodeTableWord 16 0xD123 = some (.drw 0x1 0x2 0x3) := by decide
theorem test_table_word_unknown : decodeTableWord 16 0x5001 = none := by decide
theorem test_encode : encode (.drw 0x1 0x2 0x3) = 0xD123 := by decide

/-! ## The step (40_step_cycle.md) -/

/-- E11 and A30. -/
theorem test_ldImm : after (fun t => (t.getV 0x1, t.pc)) (step (start 0x6102)) = some (0x02, 0x202) := by decide
/-- CF13. -/
theorem test_unknown_opcode : faultOf (step (start 0x5121)) = some (.unknownOpcode 0x5121 0x200) := by decide
/-- CF21. -/
theorem test_fetch_at_FFF : faultOf (step (State.reset.setPC 0xFFF)) = some (.memoryOutOfRange 0x1000) := by decide
/-- The second step of CF17. -/
theorem test_fetch_at_10FE : faultOf (step (State.reset.setPC 0x10FE)) = some (.memoryOutOfRange 0x10FE) := by decide
theorem test_fetch_word_runs : after (fun t => t.i) (step (State.reset.withFetchWord 16 0xA300)) = some 0x300 := by
  decide

/-! ## Control flow -/

/-- CF18. -/
theorem test_sys_fatal : faultOf (step (start 0x0123)) = some (.sysUnmodelled 0x0123 0x200) := by decide
/-- CF18 under `SYS_POLICY = nop`. -/
theorem test_sys_nop : after (fun t => t.pc) (step (withCfg (fun c => { c with sysPolicy := .nop }) (start 0x0123))) =
    some 0x202 := by decide
/-- CF4. -/
theorem test_ret : after (fun t => (t.pc, t.stack)) (step ((at_ 0x300 0x00EE).setStack [0x202])) =
    some (0x202, []) := by decide
/-- CF5. -/
theorem test_ret_empty : faultOf (step (at_ 0x300 0x00EE)) = some (.stackUnderflow 0x300) := by decide
/-- CF2. -/
theorem test_jp : after (fun t => t.pc) (step (start 0x1FFF)) = some 0xFFF := by decide
/-- CF3. -/
theorem test_call : after (fun t => (t.pc, t.stack)) (step (start 0x2300)) = some (0x300, [0x202]) := by decide
/-- CF6. -/
theorem test_call_full : faultOf (step ((start 0x2300).setStack (List.replicate 16 0x202))) =
    some (.stackOverflow 0x200) := by decide
/-- CF7 and CF8. -/
theorem test_seImm : after (fun t => t.pc) (step ((start 0x3310).setV 0x3 0x10)) = some 0x204 ∧
    after (fun t => t.pc) (step ((start 0x3310).setV 0x3 0x11)) = some 0x202 := by decide
/-- CF9 and CF10. -/
theorem test_sneImm : after (fun t => t.pc) (step ((start 0x4310).setV 0x3 0x10)) = some 0x202 ∧
    after (fun t => t.pc) (step ((start 0x4310).setV 0x3 0x11)) = some 0x204 := by decide
/-- CF11. -/
theorem test_seReg : after (fun t => t.pc) (step (((start 0x5120).setV 0x1 0x07).setV 0x2 0x07)) = some 0x204 := by
  decide
/-- CF14 and CF15. -/
theorem test_sneReg :
    after (fun t => t.pc) (step (((start 0x9120).setV 0x1 0x07).setV 0x2 0x08)) = some 0x204 ∧
    after (fun t => t.pc) (step ((start 0x9110).setV 0x1 0x07)) = some 0x202 := by decide
/-- CF17. -/
theorem test_jpV0 : after (fun t => t.pc) (step ((start 0xBFFF).setV 0x0 0xFF)) = some 0x10FE := by decide
/-- CF20. -/
theorem test_skip_to_the_end : after (fun t => t.pc) (step (at_ 0xFFC 0x3000)) = some 0x1000 := by decide

/-! ## Registers and arithmetic -/

/-- V1 and VF of the next state. -/
def v1vf (t : State) : Byte × Byte := (t.getV 0x1, t.getV 0xF)
/-- V0 and VF of the next state. -/
def v0vf (t : State) : Byte × Byte := (t.getV 0x0, t.getV 0xF)
/-- The instruction at 0x200 with V0 and V1 set. -/
def with01 (op : Word) (a b : Byte) : State := ((start op).setV 0x0 a).setV 0x1 b

/-- A28 and A29. -/
theorem test_addImm :
    after (fun t => (t.getV 0x2, t.getV 0xF)) (step (((start 0x7201).setV 0x2 0xFF).setV 0xF 0x05)) =
      some (0x00, 0x05) ∧
    after (fun t => t.getV 0xF) (step ((start 0x7F01).setV 0xF 0xFF)) = some 0x00 := by decide
/-- A27. -/
theorem test_ldReg : after v1vf (step (((start 0x8120).setV 0x2 0x33).setV 0xF 0x01)) = some (0x33, 0x01) := by decide
/-- A21. -/
theorem test_or : after v1vf (step ((((start 0x8121).setV 0x1 0x0F).setV 0x2 0xF0).setV 0xF 0x01)) =
    some (0xFF, 0x00) := by decide
/-- A22. -/
theorem test_or_no_reset : after v1vf (step (withCfg (fun c => { c with qVfReset := false })
    ((((start 0x8121).setV 0x1 0x0F).setV 0x2 0xF0).setV 0xF 0x01))) = some (0xFF, 0x01) := by decide
/-- A24. -/
theorem test_and : after v1vf (step (((start 0x8122).setV 0x1 0x3C).setV 0x2 0x0F)) = some (0x0C, 0x00) := by decide
/-- A25. -/
theorem test_xor : after v1vf (step (((start 0x8123).setV 0x1 0xFF).setV 0x2 0x0F)) = some (0xF0, 0x00) := by decide
/-- A1 and A2. -/
theorem test_add : after v0vf (step (with01 0x8014 0xFF 0x01)) = some (0x00, 0x01) ∧
    after v0vf (step (with01 0x8014 0x7F 0x80)) = some (0xFF, 0x00) := by decide
/-- A4 and A5. -/
theorem test_add_into_vf : after (fun t => t.getV 0xF) (step ((start 0x8FF4).setV 0xF 0x90)) = some 0x01 ∧
    after (fun t => t.getV 0xF) (step (((start 0x8F14).setV 0xF 0x10).setV 0x1 0x05)) = some 0x00 := by decide
/-- A6 and A7. -/
theorem test_sub : after v0vf (step (with01 0x8015 0x01 0x02)) = some (0xFF, 0x00) ∧
    after v0vf (step (with01 0x8015 0x05 0x05)) = some (0x00, 0x00) := by decide
/-- A8 and A10. -/
theorem test_sub_no_borrow : after v0vf (step (with01 0x8015 0x05 0x03)) = some (0x02, 0x01) ∧
    after (fun t => t.getV 0xF) (step (((start 0x8F15).setV 0xF 0x09).setV 0x1 0x03)) = some 0x01 := by decide
/-- A11 and A12. -/
theorem test_subn : after v0vf (step (with01 0x8017 0x02 0x05)) = some (0x03, 0x01) ∧
    after v0vf (step (with01 0x8017 0x05 0x02)) = some (0xFD, 0x00) := by decide
/-- A14 and A20. -/
theorem test_shr : after v1vf (step ((start 0x8126).setV 0x2 0x81)) = some (0x40, 0x01) ∧
    after (fun t => t.getV 0xF) (step ((start 0x8FF6).setV 0xF 0x02)) = some 0x00 := by decide
/-- A16. -/
theorem test_shr_vx : after v1vf (step (withCfg (fun c => { c with qShiftSrcVy := false })
    (((start 0x8126).setV 0x1 0x03).setV 0x2 0x81))) = some (0x01, 0x01) := by decide
/-- A17 and A19. -/
theorem test_shl : after v1vf (step ((start 0x812E).setV 0x2 0x81)) = some (0x02, 0x01) ∧
    after (fun t => t.getV 0xF) (step ((start 0x8F2E).setV 0x2 0x40)) = some 0x00 := by decide

/-! ## Memory and index -/

/-- The bytes at 0x300 to 0x302. -/
def bytes300 (t : State) : List Byte := [t.mem.read 0x300, t.mem.read 0x301, t.mem.read 0x302]

/-- MI1. -/
theorem test_ldI : after (fun t => t.i) (step (start 0xA300)) = some 0x300 := by decide
/-- MI2 and MI3. -/
theorem test_addI :
    after (fun t => (t.i, t.getV 0xF)) (step ((((start 0xF31E).setI 0xFFF).setV 0x3 0x02).setV 0xF 0x07)) =
      some (0x1001, 0x07) ∧
    after (fun t => t.i) (step (((start 0xF31E).setI 0xFFFF).setV 0x3 0x01)) = some 0x0000 := by decide
/-- MI4 and the last of MI5. -/
theorem test_ldF : after (fun t => t.i) (step ((start 0xF429).setV 0x4 0x0A)) = some 0x82 ∧
    after (fun t => t.i) (step ((start 0xF429).setV 0x4 0xFF)) = some 0x54B := by decide
/-- MI6. -/
theorem test_ldB : after bytes300 (step (((start 0xF533).setV 0x5 0x9C).setI 0x300)) =
    some [0x01, 0x05, 0x06] := by decide
/-- MI9. -/
theorem test_ldB_out : faultOf (step ((start 0xF533).setI 0xFFE)) = some (.memoryOutOfRange 0x1000) := by decide
/-- MI10. -/
theorem test_store : after (fun t => (bytes300 t, t.i)) (step ((with01 0xF155 0x11 0x22).setI 0x300)) =
    some ([0x11, 0x22, 0x00], 0x302) := by decide
/-- MI13. -/
theorem test_store_out : faultOf (step ((start 0xFF55).setI 0xFF1)) = some (.memoryOutOfRange 0x1000) := by decide
/-- MI14. -/
theorem test_load :
    after (fun t => ([t.getV 0x0, t.getV 0x1, t.getV 0x2], t.i))
      (step (withBytes 0x300 [0x01, 0x05, 0x06] ((start 0xF265).setI 0x300))) =
    some ([0x01, 0x05, 0x06], 0x303) := by decide
/-- MI16. -/
theorem test_load_out : faultOf (step ((start 0xF065).setI 0x1000)) = some (.memoryOutOfRange 0x1000) := by decide

/-! ## Display and random -/

/-- The instruction at 0x200 with a sprite at 0x300. -/
def sprite (op : Word) (bytes : List Byte) (vx vy : Byte) : State :=
  withBytes 0x300 bytes (((with01 op vx vy)).setI 0x300)

/-- S1. -/
theorem test_cls : after (fun t => (t.disp.cell 0 0, t.redraw))
    (step { start 0x00E0 with disp := clearedDisplay.setCell 0 0 255 }) = some (0, false) := by decide
/-- S2. -/
theorem test_drw : after (fun t => (t.disp.cell 0 0, t.getV 0xF, t.redraw, t.pc))
    (step (sprite 0xD011 [0x80] 0 0)) = some (255, 0x00, true, 0x202) := by decide
/-- S3: the second draw of a frame goes back to its own address. -/
theorem test_drw_stalls : after (fun t => (t.disp.cell 0 0, t.pc)) (step ((sprite 0xD011 [0x80] 0 0).setRedraw true)) =
    some (0, 0x200) := by decide
/-- S12. -/
theorem test_drw_collides : after (fun t => (t.disp.cell 0 0, t.disp.cell 0 1, t.getV 0xF))
    (step ((sprite 0xD011 [0xC0] 0 0).setDisp (clearedDisplay.setCell 0 0 255))) = some (0, 255, 0x01) := by decide
/-- S5, S6 and S7: the wrap of columns, the clip and the wrap of rows. -/
theorem test_drw_edges :
    after (fun t => (t.disp.cell 0 63, t.disp.cell 0 3, t.disp.cell 0 4)) (step (sprite 0xD011 [0xFF] 0x3C 0)) =
      some (255, 255, 0) ∧
    after (fun t => (t.disp.cell 31 0, t.disp.cell 0 0)) (step (sprite 0xD013 [0x80, 0x80, 0x80] 0 0x1E)) =
      some (255, 0) ∧
    after (fun t => (t.disp.cell 31 0, t.disp.cell 0 0)) (step (withCfg (fun c => { c with qDrawClip := false })
      (sprite 0xD013 [0x80, 0x80, 0x80] 0 0x1E))) = some (255, 255) := by decide
/-- S10. -/
theorem test_drw_wraps_addresses : after (fun t => (t.disp.cell 0 0, t.disp.cell 1 1))
    (step (withBytes 0xFFF [0x80] (withBytes 0x000 [0x40] ((start 0xD012).setI 0xFFF)))) = some (255, 255) := by
  decide
/-- RN1 and RN3, with the drawn byte given. -/
theorem test_rnd : ((start 0xC30F).setRandom 0xA7 0x3 0x0F).getV 0x3 = 0x07 ∧
    ((start 0xC3FF).setRandom 0x5A 0x3 0xFF).getV 0x3 = 0x5A := by decide

/-! ## Timers and keys -/

/-- TK1. -/
theorem test_ldVxDT : after (fun t => (t.getV 0x2, t.dt)) (step ((start 0xF207).setDT 0x3C)) =
    some (0x3C, 0x3C) := by decide
/-- TK2. -/
theorem test_ldDTVx : after (fun t => (t.dt, t.st)) (step ((start 0xF215).setV 0x2 0x3C)) = some (0x3C, 0x00) := by
  decide
/-- TK3. -/
theorem test_ldSTVx : after (fun t => (t.st, t.toneOn)) (step ((start 0xF218).setV 0x2 0x05)) =
    some (0x05, true) := by decide
/-- TK6 and TK10. -/
theorem test_skp : after (fun t => t.pc) (step (((start 0xE19E).setV 0x1 0x0A).setKeys (keys []) (keys [10]))) =
      some 0x204 ∧
    after (fun t => t.pc) (step (((start 0xE19E).setV 0x1 0x0A).setKeys (keys [10]) (keys []))) =
      some 0x202 := by decide
/-- TK8 and TK9. -/
theorem test_sknp : after (fun t => t.pc) (step ((start 0xE1A1).setV 0x1 0x0A)) = some 0x204 ∧
    after (fun t => t.pc) (step (((start 0xE1A1).setV 0x1 0x0A).setKeys (keys []) (keys [10]))) = some 0x202 := by
  decide
/-- TK11. -/
theorem test_key_index : faultOf (step ((start 0xE19E).setV 0x1 0x10)) = some (.keyIndexOutOfRange 0x10) ∧
    after (fun t => t.pc) (step (withCfg (fun c => { c with keyIndexPolicy := .lowNibble })
      (((start 0xE19E).setV 0x1 0x10).setKeys (keys []) (keys [0])))) = some 0x204 := by decide
/-- TK12. -/
theorem test_ldVxK : after (fun t => (t.pc, t.execState, t.getV 0x3)) (step (start 0xF30A)) =
    some (0x202, .awaitingKey 0x3 .waitingForPress, 0x00) := by decide

/-- The machine waits for a key, for V3. -/
def waiting (phase : WaitPhase) : State := State.reset.setExec (.awaitingKey 0x3 phase)

/-- W3: the lowest key. -/
theorem test_wait_lowest : after (fun t => (t.getV 0x3, t.execState))
    (step ((waiting .waitingForPress).takeKeys (keys [3, 7]))) =
    some (0x03, .awaitingKey 0x3 (.waitingForRelease 0x3)) := by decide
/-- W5: the release of the accepted key. -/
theorem test_wait_release : after (fun t => t.execState)
    (step ((waiting (.waitingForRelease 0x3)).takeKeys (keys [7]))) = some .running := by decide
/-- W4: the key is held. -/
theorem test_wait_held : after (fun t => t.execState)
    (step ((waiting (.waitingForRelease 0x3)).takeKeys (keys [3, 7]))) =
    some (.awaitingKey 0x3 (.waitingForRelease 0x3)) := by decide

/-! ## The host -/

/-- TK4 and TK5. -/
theorem test_timer_tick :
    ((State.reset.setDT 0x01).timerTick.dt, (State.reset.setDT 0x01).timerTick.st) = (0x00, 0x00) ∧
    ((State.reset.setST 0x02).timerTick.dt, (State.reset.setST 0x02).timerTick.st) = (0x00, 0x01) := by decide
/-- H1 and H2. -/
theorem test_snapshot_and_frame :
    ((State.reset.setKeys (keys []) (keys [2])).takeKeys (keys [5])).keyPrev = keys [2] ∧
    ((State.reset.setKeys (keys []) (keys [2])).takeKeys (keys [5])).keyCur = keys [5] ∧
    (State.reset.setRedraw true).frameBoundary.redraw = false := by decide
/-- MI5 with the default font: glyph 7 begins at 0x73 with F0 10 (program P3). -/
theorem test_font : [State.reset.bootstrapFont.mem.read 0x73, State.reset.bootstrapFont.mem.read 0x74] =
    [0xF0, 0x10] := by decide
/-- E10. -/
theorem test_rom_too_large (rom : List Byte) (h : rom.length = 3585) :
    State.reset.loadRom rom = .error (.romTooLarge 3585) := by
  simp [State.loadRom, h, romBase, memSize]

/-! ## Witnesses: states and operands that meet the hypotheses of each obligation, clause by clause -/

theorem witness_StepFollowsItsContract :
    ({ State.reset with halt := some (.stackOverflow 0x200) } : State).halt ≠ none ∧
    ((at_ 0xFFE 0x00E0).halt = none ∧ (at_ 0xFFE 0x00E0).execState = .running ∧
      memReadWord 0xFFE (at_ 0xFFE 0x00E0) = .ok 0x00E0 ∧ decode 0x00E0 = .instr .cls) ∧
    (waiting .waitingForPress).halt = none ∧
    (waiting .waitingForPress).execState = .awaitingKey 0x3 .waitingForPress :=
  ⟨by decide, ⟨rfl, rfl, rfl, by decide⟩, rfl, rfl⟩

theorem witness_FetchAndDecodeErrorsStop :
    (at_ 0xFFE 0x5001).halt = none ∧ (at_ 0xFFE 0x5001).execState = .running ∧
    ((at_ 0xFFE 0x5001).pc.toNat ≤ 0xFFE ∧ memReadWord 0xFFE (at_ 0xFFE 0x5001) = .ok 0x5001 ∧
      decode 0x5001 = .unknown 0x5001) ∧
    (State.reset.setPC 0xFFF).pc.toNat = 0xFFF ∧ 0x1000 ≤ (State.reset.setPC 0x1000).pc.toNat :=
  ⟨rfl, rfl, ⟨by decide, rfl, by decide⟩, by decide, by decide⟩

theorem witness_FatalErrorHaltsForGood : State.reset.halt = none ∧
    (∃ t, step (start 0x6102) = .next t) ∧ ∃ f, step (start 0x00EE) = .fault f :=
  ⟨rfl, ⟨_, rfl⟩, ⟨_, rfl⟩⟩

theorem witness_DecodeOfEncode : (Instr.sys 0xFFF).wellFormed = true ∧ (Instr.drw 0xF 0xF 0xF).wellFormed = true := by
  decide

theorem witness_EncodeOfDecode : decode 0xFF65 = .instr (.ldVxMem 0xF) ∧ decode 0x0FFF = .instr (.sys 0xFFF) := by
  decide

theorem witness_UnknownExactlyWhenNoRowMatches : decode 0xFFFF = .unknown 0xFFFF ∧ decode 0x800E = .instr (.shl 0 0) := by
  decide

theorem witness_RowsAreDisjoint : matchesRow 0x00E0 (0xFFFF, 0x00E0) = true ∧ matchesRow 0x00E0 (0xF000, 0x0000) = true := by
  decide

theorem witness_MemoriesThatReadAlikeAreEqual :
    let m : Memory := ((⟨[]⟩ : Memory).write 7 1).write 5 2
    let m' : Memory := (((⟨[]⟩ : Memory).write 5 2).write 9 3).write 7 1
    m.wf = true ∧ (m'.write 9 0).wf = true ∧ ∀ a, m.read a = (m'.write 9 0).read a :=
  ⟨by decide, by decide, fun _ => rfl⟩

theorem witness_SysFollowsItsPolicy : State.reset.cfg.sysPolicy = .fatal ∧
    (withCfg (fun c => { c with sysPolicy := .nop }) State.reset).cfg.sysPolicy = .nop := by decide

theorem witness_ReturnPops : (State.reset.setStack [0x202]).stack = [] ++ [0x202] ∧ State.reset.stack = [] ∧
    ∃ t, exec (.call 0xFFF) (State.reset.setStack (List.replicate 15 0x202)) = .next t :=
  ⟨rfl, rfl, ⟨_, rfl⟩⟩

/-- The idle loop of 92_eei_decisions.md D23. -/
theorem witness_JumpGoesToItsTarget : (start 0x1200).halt = none ∧ (start 0x1200).execState = .running ∧
    memReadWord 0x200 (start 0x1200) = .ok 0x1200 ∧ decode 0x1200 = .instr (.jp 0x200) ∧
    (start 0x1200).pc.toNat = (0x200 : Addr).toNat :=
  ⟨rfl, rfl, rfl, by decide, by decide⟩

theorem witness_CallPushesItsReturnAddress : (State.reset.setStack (List.replicate 15 0x202)).stack.length < 16 ∧
    (State.reset.setStack (List.replicate 16 0x202)).stack.length = 16 := by decide

theorem witness_StackErrorsRecordTheInstruction :
    16 ≤ (State.reset.setStack (List.replicate 16 0x202)).stack.length ∧ State.reset.stack = [] := by decide

/-- Under `UNINIT_POLICY = fault`, with V1 and V2 written. -/
def strict12 : State := ((strict State.reset).setV 0x1 0x07).setV 0x2 0x08

theorem witness_RegisterSkips : OperandsReadable (.seImm 0x1 0x07) strict12 ∧
    OperandsReadable (.sneImm 0x1 0x07) strict12 ∧ OperandsReadable (.seReg 0x1 0x2) strict12 ∧
    OperandsReadable (.sneReg 0x1 0x2) strict12 ∧ OperandsReadable (.seReg 0x0 0xF) State.reset := by decide

theorem witness_IndexedJumpAddsV0 : OperandsReadable (.jpV0 0xFFF) ((strict State.reset).setV 0x0 0xFF) := by decide

theorem witness_AddImmediateAndCopyLeaveTheFlag : OperandsReadable (.addImm 0x1 0xFF) strict12 ∧
    OperandsReadable (.ldReg 0x0 0x1) strict12 ∧ OperandsReadable (.addImm 0xF 0x01) State.reset := by decide

theorem witness_LogicOperations : OperandsReadable (.orReg 0x1 0x2) strict12 ∧
    OperandsReadable (.andReg 0x1 0x2) strict12 ∧ OperandsReadable (.xorReg 0x1 0x2) strict12 ∧
    strict12.cfg.qVfReset = true ∧ OperandsReadable (.orReg 0xF 0xF) State.reset ∧
    (withCfg (fun c => { c with qVfReset := false }) State.reset).cfg.qVfReset = false := by decide

theorem witness_AddSetsCarry : OperandsReadable (.addReg 0x1 0x2) strict12 ∧ (0x1 : Reg) ≠ 0xF ∧
    OperandsReadable (.addReg 0xF 0xF) State.reset := by decide

theorem witness_SubtractSetsNoBorrow : OperandsReadable (.subReg 0x1 0x2) strict12 ∧
    OperandsReadable (.subn 0x1 0x2) strict12 ∧ (0x1 : Reg) ≠ 0xF ∧
    OperandsReadable (.subReg 0xF 0x0) State.reset := by decide

theorem witness_ShiftsMoveOneBit : OperandsReadable (.shr 0x0 0x2) strict12 ∧ OperandsReadable (.shl 0x0 0x2) strict12 ∧
    (0x0 : Reg) ≠ 0xF ∧ OperandsReadable (.shr 0xF 0x0) State.reset := by decide

theorem witness_RegistersChangeOnlyAsNamed :
    (∃ t, exec (.addReg 0x1 0x2) State.reset = .next t) ∧ (0x3 : Reg) ∉ destinations (.addReg 0x1 0x2) ∧
    (∃ t, exec (.addImm 0x1 0xFF) State.reset = .next t) ∧ (0xF : Reg) ∉ destinations (.addImm 0x1 0xFF) ∧
    writesFlag State.reset.cfg (.addImm 0x1 0xFF) = false :=
  ⟨⟨_, rfl⟩, by decide, ⟨_, rfl⟩, by decide, rfl⟩

theorem witness_FlagsAreZeroOrOne :
    ((∃ t, exec (.addReg 0xF 0xF) State.reset = .next t) ∧ writesFlag State.reset.cfg (.addReg 0xF 0xF) = true) ∧
    (∃ t, exec (.drw 0x0 0x0 0xF) State.reset = .next t) ∧
    (∀ x y n, Instr.drw 0x0 0x0 0xF = .drw x y n → State.reset.drawStalls = false) :=
  ⟨⟨⟨_, rfl⟩, rfl⟩, ⟨_, rfl⟩, fun _ _ _ _ => rfl⟩

/-- Under `UNINIT_POLICY = fault`, with I and every V register written. -/
def strictAll (i : Word) : State :=
  { (strict State.reset).setI i with written := ⟨Vector.replicate 16 true, true, false, false⟩ }

theorem witness_IndexArithmetic : OperandsReadable (.addIVx 0xF) (strictAll 0xFFFF) ∧
    OperandsReadable (.ldFVx 0x1) strict12 := by decide

theorem witness_DecimalDigitsAreStored : OperandsReadable (.ldBVx 0x1) (strictAll 0xFFD) ∧
    dataAddress (strictAll 0xFFD).i 2 < 4096 := by decide

theorem witness_BulkStore : OperandsReadable (.ldMemVx 0xF) (strictAll 0xFF0) ∧
    dataAddress (strictAll 0xFF0).i (0xF : Reg).toNat < 4096 ∧ (strictAll 0xFF0).cfg.qIndexIncrement = true ∧
    dataAddress (strictAll 0xFFF).i (0x0 : Reg).toNat < 4096 := by decide

theorem witness_BulkLoad : OperandsReadable (.ldVxMem 0xF) (strictAll 0xFF0) ∧
    dataAddress (strictAll 0xFF0).i (0xF : Reg).toNat < 4096 := by decide

theorem witness_DataAddressesBeyondMemoryStop :
    (OperandsReadable (.ldBVx 0x1) (strictAll 0xFFE) ∧ 4096 ≤ dataAddress (strictAll 0xFFE).i 2) ∧
    (OperandsReadable (.ldMemVx 0xF) (strictAll 0xFF1) ∧ 4096 ≤ dataAddress (strictAll 0xFF1).i (0xF : Reg).toNat) ∧
    OperandsReadable (.ldVxMem 0x0) (strictAll 0x1000) ∧ 4096 ≤ dataAddress (strictAll 0x1000).i (0x0 : Reg).toNat := by
  decide

theorem witness_BulkLoadUndoesBulkStore : ∃ t u, exec (.ldMemVx 0x1) (strictAll 0xFFE) = .next t ∧
    exec (.ldVxMem 0x1) { t with i := (strictAll 0xFFE).i } = .next u :=
  ⟨_, _, rfl, rfl⟩

theorem witness_StoredWordIsFetched : (∃ t, exec (.ldMemVx 0x1) (with01 0xF155 0x12 0x0C) = .next t) ∧
    1 ≤ (0x1 : Reg).toNat ∧ (with01 0xF155 0x12 0x0C).halt = none ∧
    (with01 0xF155 0x12 0x0C).execState = .running ∧ decode (wordOfBytes 0x12 0x0C) = .instr (.jp 0x20C) :=
  ⟨⟨_, rfl⟩, by decide, rfl, rfl, by decide⟩

theorem witness_DrawFlipsExactlyTheCoveredCells : OperandsReadable (.drw 0x1 0x2 0xF) (strictAll 0xFFF) ∧
    OperandsReadable (.drw 0x1 0x2 0x0) strict12 ∧ strict12.redraw = false ∧
    (withCfg (fun c => { c with qDrawThrottle := false }) State.reset).cfg.qDrawThrottle = false := by decide

theorem witness_CollisionMeansACellWentOff : (∃ t, exec (.drw 0xF 0xF 0x1) State.reset = .next t) ∧
    State.reset.redraw = false := ⟨⟨_, rfl⟩, rfl⟩

theorem witness_DrawingTwiceRestoresTheDisplay : (0x0 : Reg) ≠ 0xF ∧ State.reset.disp.wf = true ∧
    State.reset.redraw = false ∧ ∃ t u, exec (.drw 0x0 0x1 0xF) State.reset = .next t ∧
      exec (.drw 0x0 0x1 0xF) t.frameBoundary = .next u :=
  ⟨by decide, clearedDisplay_wf, rfl, _, _, rfl, rfl⟩

theorem witness_ThrottledDrawStalls :
    let s := (start 0xD011).setRedraw true
    s.cfg.qDrawThrottle = true ∧ s.redraw = true ∧ s.halt = none ∧ s.execState = .running ∧
    memReadWord s.pc.toNat s = .ok 0xD011 ∧ decode 0xD011 = .instr (.drw 0x0 0x1 0x1) :=
  ⟨rfl, rfl, rfl, rfl, rfl, by decide⟩

theorem witness_TimerTransfers : OperandsReadable (.ldVxDT 0x1) ((strict State.reset).setDT 0x3C) ∧
    OperandsReadable (.ldDTVx 0x1) strict12 ∧ OperandsReadable (.ldSTVx 0x1) strict12 := by decide

theorem witness_KeySkips :
    (((strict State.reset).setV 0x1 0x0F).getV 0x1).toNat ≤ 0xF ∧
    OperandsReadable (.skp 0x1) ((strict State.reset).setV 0x1 0x0F) ∧
    OperandsReadable (.sknp 0x1) ((strict State.reset).setV 0x1 0x0F) ∧
    (0xF < ((State.reset.setV 0x1 0x10).getV 0x1).toNat ∧
      (State.reset.setV 0x1 0x10).cfg.keyIndexPolicy = .fault) ∧
    (withCfg (fun c => { c with keyIndexPolicy := .lowNibble }) State.reset).cfg.keyIndexPolicy = .lowNibble := by decide

theorem witness_WaitCheckTransitions :
    (let s := (waiting .waitingForPress).takeKeys (keys [15])
     s.halt = none ∧ s.execState = .awaitingKey 0x3 .waitingForPress ∧
     s.wasPressed 0xF = false ∧ s.pressed 0xF = true ∧
     ∀ j : Key, j.toNat < (0xF : Key).toNat → s.wasPressed j = true ∨ s.pressed j = false) ∧
    (∀ k, (waiting .waitingForPress).wasPressed k = true ∨ (waiting .waitingForPress).pressed k = false) ∧
    (let s := (waiting (.waitingForRelease 0x5)).takeKeys (keys [5])
     s.execState = .awaitingKey 0x3 (.waitingForRelease 0x5) ∧ s.pressed 0x5 = true) ∧
    (waiting (.waitingForRelease 0x5)).pressed 0x5 = false := by decide

theorem witness_KeyWaitTakesPressAndRelease : (waiting .waitingForPress).halt = none ∧
    (waiting .waitingForPress).execState = .awaitingKey 0x3 .waitingForPress := by decide

theorem witness_SoundTimerIsNeverRead : (∃ t, exec (.ldSTVx 0x1) State.reset = .next t) ∧
    ∃ f, exec .ret State.reset = .fault f := ⟨⟨_, rfl⟩, ⟨_, rfl⟩⟩

theorem witness_PreviousKeysAreReadByTheWaitOnly : (∃ t, exec (.skp 0x1) State.reset = .next t) ∧
    ∃ f, exec .ret State.reset = .fault f := ⟨⟨_, rfl⟩, ⟨_, rfl⟩⟩

theorem witness_OnlyStoresChangeMemory : (∃ t, exec (.ldVxMem 0xF) State.reset = .next t) ∧
    (∀ x, Instr.ldVxMem 0xF ≠ .ldBVx x) ∧ ∀ x, Instr.ldVxMem 0xF ≠ .ldMemVx x :=
  ⟨⟨_, rfl⟩, by decide, by decide⟩

/-- For each part of the state, an instruction that changes it. -/
theorem witness_StateChangesOnlyAsNamed :
    after (fun t => t.stack) (exec (.call 0x300) State.reset) = some [0x200] ∧
    after (fun t => t.redraw) (exec (.drw 0x0 0x0 0x0) State.reset) = some true ∧
    after (fun t => t.dt) (exec (.ldDTVx 0x1) (State.reset.setV 0x1 0x05)) = some 0x05 ∧
    after (fun t => t.st) (exec (.ldSTVx 0x1) (State.reset.setV 0x1 0x05)) = some 0x05 ∧
    after (fun t => t.execState) (exec (.ldVxK 0x1) State.reset) = some (.awaitingKey 0x1 .waitingForPress) ∧
    after (fun t => t.i) (exec (.ldVxMem 0x0) State.reset) = some 0x001 := by decide

theorem witness_UninitialisedReadsStop :
    let s := (strict State.reset).setV 0x1 0x07
    itemsRead s (.seReg 0x1 0x2) = [.v 0x1] ++ .v 0x2 :: [] ∧ (∀ j ∈ [Item.v 0x1], s.readable j = true) ∧
    s.cfg.uninitPolicy = .fault ∧ s.written.has (.v 0x2) = false := by decide

/-- FX55 reads V1, never written, after its last address in memory. -/
theorem witness_UninitialisedReadsStop_store :
    let s := ((strict State.reset).setV 0x0 0x07).setI 0xFFF
    itemsRead s (.ldMemVx 0x2) = [.i, .v 0x0] ++ .v 0x1 :: [.v 0x2] ∧
    (∀ j ∈ [Item.i, .v 0x0], s.readable j = true) ∧ s.cfg.uninitPolicy = .fault ∧
    s.written.has (.v 0x1) = false ∧ ∀ k < 1, dataAddress s.i k < 4096 := by decide

/-- FX55 meets an address out of range at V1 before it reads V2, never written. -/
theorem witness_UninitialisedReadsStop_address :
    let s := (((strict State.reset).setV 0x0 0x07).setV 0x1 0x08).setI 0xFFF
    1 ≤ (0x2 : Reg).toNat ∧ s.readable .i = true ∧ (∀ r : Reg, r.toNat ≤ 1 → s.readable (.v r) = true) ∧
    (∀ j < 1, dataAddress s.i j < 4096) ∧ 4096 ≤ dataAddress s.i 1 ∧ s.readable (.v 0x2) = false := by decide

theorem witness_WritesMarkTheirItems :
    (∃ t, exec (.ldVxMem 0xF) State.reset = .next t) ∧ Item.v 0xF ∈ itemsWritten State.reset (.ldVxMem 0xF) ∧
    Item.i ∈ itemsWritten State.reset (.ldVxMem 0xF) ∧
    (let s := (waiting .waitingForPress).takeKeys (keys [15])
     s.halt = none ∧ s.execState = .awaitingKey 0x3 .waitingForPress ∧ (∃ t, step s = .next t) ∧
     s.wasPressed 0xF = false ∧ s.pressed 0xF = true) :=
  ⟨⟨_, rfl⟩, by decide, by decide, rfl, rfl, ⟨_, rfl⟩, by decide, by decide⟩

/-- A step of FX15 changes DT, and one of DXYN changes Redraw. -/
theorem witness_StepsChangeTimersAndRedrawAsNamed :
    after (fun t => t.dt) (step ((start 0xF215).setV 0x2 0x3C)) = some 0x3C ∧
    after (fun t => t.redraw) (step (start 0xD010)) = some true := by decide

/-- A full stack of the greatest return address. -/
def fullStack : State := (start 0x00EE).setStack (List.replicate 16 0x1000)

theorem fullStack_meets_Inv : Inv fullStack where
  mem := by decide
  disp := by rw [show fullStack.disp = clearedDisplay from rfl]; exact clearedDisplay_wf
  depth := by decide
  returns := fun _ h => by rw [List.eq_of_mem_replicate h]; decide
  pc := by decide
  waiting := fun _ _ h => by cases h

theorem witness_StepKeepsTheInvariant : Inv fullStack ∧ ∃ t, step fullStack = .next t :=
  ⟨fullStack_meets_Inv, ⟨_, rfl⟩⟩

/-- The greatest PC, and the wait for a release. -/
theorem witness_StepKeepsTheInvariant_waiting :
    let s := ((waiting (.waitingForRelease 0x5)).setV 0x3 0x05).setPC 0x10FE
    Inv s ∧ ∃ t, step s = .next t :=
  ⟨{ mem := by decide
     disp := by rw [show State.disp _ = clearedDisplay from rfl]; exact clearedDisplay_wf
     depth := by decide
     returns := fun _ h => by cases h
     pc := by decide
     waiting := fun r k h => by cases h; rfl }, ⟨_, rfl⟩⟩

theorem witness_EveryScheduleKeepsTheInvariant : Inv fullStack ∧
    ∃ t, runMoves [.timerTick, .setKeys (keys [5]), .step, .frameBoundary] fullStack = .next t :=
  ⟨fullStack_meets_Inv, ⟨_, rfl⟩⟩

theorem witness_BootPlacesFontAndRom : (∃ rom : List Byte, rom.length = 3584) ∧ ∃ rom : List Byte, 3584 < rom.length :=
  ⟨⟨List.replicate 3584 0x00, List.length_replicate⟩, ⟨List.replicate 3585 0x00, by rw [List.length_replicate]; decide⟩⟩

end Sys2Proof.Tests
end

section
/-! PROOFS of the family 20_memory.md: the byte and word accesses (R52, R53, R54). -/
namespace Sys2Proof.Machine

/-! ## The word of two bytes -/

theorem toNat_wordOfBytes (hi lo : Byte) : (wordOfBytes hi lo).toNat = 256 * hi.toNat + lo.toNat := by
  rw [wordOfBytes, BitVec.toNat_append, ← Nat.shiftLeft_add_eq_or_of_lt lo.isLt, Nat.shiftLeft_eq, Nat.mul_comm]

/-! ## The word read, one equation per case -/

theorem memReadWord_eq_ok {a : Nat} {s : State} (h : a + 1 < memSize) :
    memReadWord a s = .ok (wordOfBytes (s.mem.read a) (s.mem.read (a + 1))) := by
  rcases memReadWord_cases a s with ⟨_, e⟩ | ⟨h', _⟩ | ⟨h', _⟩
  · exact e
  all_goals omega

/-- The word read that crosses the end of the memory fails on its second byte. -/
theorem memReadWord_eq_error_second {a : Nat} {s : State} (h : a + 1 = memSize) :
    memReadWord a s = .error (.memoryOutOfRange memSize) := by
  rcases memReadWord_cases a s with ⟨h', _⟩ | ⟨_, e⟩ | ⟨h', _⟩
  · omega
  · rw [e, h]
  · omega

/-- The word read past the end of the memory fails on its first byte. -/
theorem memReadWord_eq_error_first {a : Nat} {s : State} (h : memSize ≤ a) :
    memReadWord a s = .error (.memoryOutOfRange a) := by
  rcases memReadWord_cases a s with ⟨h', _⟩ | ⟨h', _⟩ | ⟨_, e⟩
  · omega
  · omega
  · exact e

/-! ## The obligations -/

/-- Settles O9: the accessors' equations on both sides of 4096, the frame of `setMem`, and the read after a write. -/
theorem byteAccesses : Obligations.ByteAccesses := by
  intro a b s
  constructor
  · intro (h : a < memSize)
    exact ⟨memRead_eq_ok h, s.setMem (s.mem.write a b), memWrite_eq_ok h,
      sameExcept_setMem s _ (List.mem_singleton_self _), fun a' => Memory.read_write a a' b s.mem⟩
  · intro (h : memSize ≤ a)
    exact ⟨memRead_eq_error h, memWrite_eq_error h⟩

/-- Settles O10: the three cases of the word read, and the value of the word of two bytes. -/
theorem wordReadIsBigEndian : Obligations.WordReadIsBigEndian := by
  intro a s
  refine ⟨fun h => ?_, fun h => ?_, fun h => memReadWord_eq_error_first h, fun hHi hLo => ?_⟩
  · have inMemory : a + 1 < memSize := show a + 1 < 4096 by omega
    exact ⟨_, memReadWord_eq_ok inMemory, toNat_wordOfBytes _ _⟩
  · exact memReadWord_eq_error_second (congrArg Nat.succ h)
  · rw [memReadWord_eq_ok (by decide), hHi, hLo]
    rfl

end Sys2Proof.Machine
end

section
/-! PROOFS of the family 40_step_cycle.md: the step contract (R100) and the three frames of the key wait (R107). -/
namespace Sys2Proof.Machine

/-! ## The running step -/

/-- The word fetched decides the instruction that runs (40_step_cycle.md R100 to R102). -/
theorem runInstruction_of_fetch_eq_ok {s : State} {op : Word} {i : Instr} (hf : fetch s = .ok op)
    (hd : decode op = .instr i) : runInstruction s = exec i s.advance := by
  simp [runInstruction, hf, hd]

/-! ## The keys of a snapshot -/

@[simp] theorem State.pressed_takeKeys (snapshot : Keys) (k : Key) (s : State) :
    (s.takeKeys snapshot).pressed k = snapshot[k.toNat] := rfl

@[simp] theorem State.getV_takeKeys (r : Reg) (snapshot : Keys) (s : State) :
    (s.takeKeys snapshot).getV r = s.getV r := rfl

/-- The press edge that a new snapshot makes: the key was off, and the snapshot has it on. -/
theorem State.pressEdge_takeKeys (snapshot : Keys) (k : Key) (s : State) :
    (s.takeKeys snapshot).pressEdge k = (!s.pressed k && snapshot[k.toNat]) := rfl

/-- In the snapshot "only key k" a key is on exactly when it is k. -/
theorem getElem_onlyKey (k j : Key) :
    ((Vector.replicate 16 false).set k.toNat true)[j.toNat] = decide (k = j) := by
  by_cases h : k = j
  · simp [h]
  · have hne : k.toNat ≠ j.toNat := fun e => h (BitVec.eq_of_toNat_eq e)
    simp [h, hne]

/-- The first press edge is the one key that has an edge while no key of a lower number has one
(40_step_cycle.md R104). -/
theorem firstPressEdge_eq_some_iff {s : State} {k : Key} :
    s.firstPressEdge = some k ↔
      s.pressEdge k = true ∧ ∀ j, j.toNat < k.toNat → s.pressEdge j = false := by
  refine ⟨firstPressEdge_eq_some, fun ⟨edge, lower⟩ => ?_⟩
  cases found : s.firstPressEdge with
  | none => simp [firstPressEdge_eq_none.1 found k] at edge
  | some j =>
    obtain ⟨edge', lower'⟩ := firstPressEdge_eq_some found
    have notBelow : ¬ j.toNat < k.toNat := fun h => by simp [lower j h] at edge'
    have notAbove : ¬ k.toNat < j.toNat := fun h => by simp [lower' k h] at edge
    rw [BitVec.eq_of_toNat_eq (show j.toNat = k.toNat by omega)]

/-! ## The wait check, one equation per transition -/

theorem waitCheck_of_firstPressEdge_eq_none {r : Reg} {s : State} (h : s.firstPressEdge = none) :
    waitCheck r .waitingForPress s = s := by
  simp [waitCheck, h]

theorem waitCheck_of_firstPressEdge_eq_some {r : Reg} {k : Key} {s : State} (h : s.firstPressEdge = some k) :
    waitCheck r .waitingForPress s =
      (s.setV r (k.setWidth 8)).setExec (.awaitingKey r (.waitingForRelease k)) := by
  simp [waitCheck, h]

theorem waitCheck_of_released {r : Reg} {k : Key} {s : State} (h : s.pressed k = false) :
    waitCheck r (.waitingForRelease k) s = s.setExec .running := by
  simp [waitCheck, h]

/-! ## A frame of the key wait: one snapshot, one step -/

/-- A frame of a waiting machine is the wait check on the new snapshot. -/
theorem runMoves_setKeys_step_of_awaiting {r : Reg} {p : WaitPhase} {s : State} (hh : s.halt = none)
    (hx : s.execState = .awaitingKey r p) (snapshot : Keys) :
    runMoves [.setKeys snapshot, .step] s = .next (waitCheck r p (s.takeKeys snapshot)) := by
  have stepped : step (s.takeKeys snapshot) = .next (waitCheck r p (s.takeKeys snapshot)) :=
    step_awaiting hh hx
  simp [runMoves, State.move, stepped]

/-- No key on: the wait for a press goes on. -/
theorem keyWait_frame_allOff {r : Reg} {s : State} (hh : s.halt = none)
    (hx : s.execState = .awaitingKey r .waitingForPress) :
    runMoves [.setKeys (Vector.replicate 16 false), .step] s =
      .next (s.takeKeys (Vector.replicate 16 false)) := by
  have noEdge : (s.takeKeys (Vector.replicate 16 false)).firstPressEdge = none :=
    firstPressEdge_eq_none.2 fun k => by simp [State.pressEdge_takeKeys]
  rw [runMoves_setKeys_step_of_awaiting hh hx, waitCheck_of_firstPressEdge_eq_none noEdge]

/-- Only key k on, and off before: the target takes k, and the wait is for its release. -/
theorem keyWait_frame_onlyKey {r : Reg} {k : Key} {s : State} (hh : s.halt = none)
    (hx : s.execState = .awaitingKey r .waitingForPress) (wasOff : s.pressed k = false) :
    runMoves [.setKeys ((Vector.replicate 16 false).set k.toNat true), .step] s =
      .next (((s.takeKeys ((Vector.replicate 16 false).set k.toNat true)).setV r (k.setWidth 8)).setExec
        (.awaitingKey r (.waitingForRelease k))) := by
  have edgeAtK : (s.takeKeys ((Vector.replicate 16 false).set k.toNat true)).firstPressEdge = some k := by
    refine firstPressEdge_eq_some_iff.2 ⟨?_, fun j hj => ?_⟩
    · rw [State.pressEdge_takeKeys, getElem_onlyKey, wasOff]
      simp
    · have hne : k ≠ j := fun e => by simp [e] at hj
      rw [State.pressEdge_takeKeys, getElem_onlyKey]
      simp [hne]
  rw [runMoves_setKeys_step_of_awaiting hh hx, waitCheck_of_firstPressEdge_eq_some edgeAtK]

/-- The awaited key off: the machine runs again. -/
theorem keyWait_frame_released {r : Reg} {k : Key} {s : State} {snapshot : Keys} (hh : s.halt = none)
    (hx : s.execState = .awaitingKey r (.waitingForRelease k)) (off : snapshot[k.toNat] = false) :
    runMoves [.setKeys snapshot, .step] s = .next ((s.takeKeys snapshot).setExec .running) := by
  rw [runMoves_setKeys_step_of_awaiting hh hx, waitCheck_of_released ((State.pressed_takeKeys snapshot k s).trans off)]

/-! ## The obligations -/

/-- Settles O1: an answered step is not halted, and the two other cases are the step's own equations. -/
theorem stepFollowsItsContract : Obligations.StepFollowsItsContract := by
  intro s
  refine ⟨fun halted t answered => halted (step_eq_next answered).1, ?_, fun hh r p hx => step_awaiting hh hx⟩
  intro hh hx op i fetched decoded
  rw [step_running hh hx]
  exact runInstruction_of_fetch_eq_ok fetched decoded

/-- Settles O45: each of the three frames (R107) starts where the frame before it ends. -/
theorem keyWaitTakesPressAndRelease : Obligations.KeyWaitTakesPressAndRelease := by
  intro r k s hh hx
  refine ⟨_, _, _, keyWait_frame_allOff hh hx, hx, keyWait_frame_onlyKey hh hx ?wasOff, ?taken, rfl,
    keyWait_frame_released hh rfl ?released, ?kept, rfl⟩
  case wasOff => simp
  case taken => simp
  case released => simp
  case kept => simp

end Sys2Proof.Machine
end

section
/-! PROOFS of the family 41_control_flow.md: RET, JP, CALL and the register skips (R121 to R127). -/
namespace Sys2Proof.Machine

/-! ## RET (R121) -/

theorem pop_of_stack_eq_append {l : List Word} {a : Word} {s : State} (h : s.stack = l ++ [a]) :
    pop s = .ok (a, s.setStack l) := by
  simp [pop, h]

theorem exec_ret_of_stack_eq_append {l : List Word} {a : Word} {s : State} (h : s.stack = l ++ [a]) :
    exec .ret s = .next ((s.setStack l).setPC a) := by
  simp [exec, execRet, pop_of_stack_eq_append h]

theorem exec_ret_of_stack_eq_nil {s : State} (h : s.stack = []) :
    exec .ret s = .fault (.stackUnderflow s.opAddress) := by
  simp [exec, execRet, pop, h]

/-! ## JP (R122) -/

theorem exec_jp (nnn : Addr) (s : State) : exec (.jp nnn) s = .next (s.setPC (addrOperand nnn)) := rfl

theorem addrOperand_eq_of_toNat_eq {nnn : Addr} {a : Word} (h : a.toNat = nnn.toNat) : addrOperand nnn = a :=
  BitVec.eq_of_toNat_eq ((addrOperand_toNat nnn).trans h.symm)

/-- No opcode can be fetched at the last byte of the memory (40_step_cycle.md R101). -/
theorem fetch_of_pc_eq_last {s : State} (h : s.pc.toNat + 1 = memSize) :
    fetch s = .error (.memoryOutOfRange memSize) :=
  memReadWord_eq_error_second h

/-- A jump back to where the step began undoes the advance. -/
theorem exec_jp_advance_of_self {nnn : Addr} {s : State} (h : s.pc.toNat = nnn.toNat) :
    exec (.jp nnn) s.advance = .next s := by
  rw [exec_jp, addrOperand_eq_of_toNat_eq h]
  rfl

/-! ## CALL (R123) -/

theorem exec_call_of_lt {nnn : Addr} {s : State} (h : s.stack.length < stackDepth) :
    exec (.call nnn) s = .next ((s.setStack (s.stack ++ [s.pc])).setPC (addrOperand nnn)) := by
  simp [exec, execCall, push, h]

theorem exec_call_of_full {nnn : Addr} {s : State} (h : stackDepth ≤ s.stack.length) :
    exec (.call nnn) s = .fault (.stackOverflow s.opAddress) := by
  simp [exec, execCall, push, Nat.not_lt.2 h]

/-- RET undoes a CALL: it pops the entry the CALL pushed and goes back to the PC the CALL left. -/
theorem exec_ret_of_exec_call {nnn : Addr} {s t : State} (h : exec (.call nnn) s = .next t) :
    exec .ret t = .next s := by
  obtain ⟨_, rfl⟩ := execCall_next h
  exact exec_ret_of_stack_eq_append rfl

/-! ## The register skips (R124 to R127): with readable operands each is `skipIf` of its comparison -/

section
variable {x y : Reg} {kk : Byte} {s : State}

theorem exec_seImm (h : OperandsReadable (.seImm x kk) s) :
    exec (.seImm x kk) s = .next (s.skipIf (s.getV x == kk)) := by
  have readX : s.readable (.v x) = true := h _ (by simp [itemsRead])
  simp [exec, execSeImm, readX]

theorem exec_sneImm (h : OperandsReadable (.sneImm x kk) s) :
    exec (.sneImm x kk) s = .next (s.skipIf (s.getV x != kk)) := by
  have readX : s.readable (.v x) = true := h _ (by simp [itemsRead])
  simp [exec, execSneImm, readX]

theorem exec_seReg (h : OperandsReadable (.seReg x y) s) :
    exec (.seReg x y) s = .next (s.skipIf (s.getV x == s.getV y)) := by
  have readX : s.readable (.v x) = true := h _ (by simp [itemsRead])
  have readY : s.readable (.v y) = true := h _ (by simp [itemsRead])
  simp [exec, execSeReg, readX, readY]

theorem exec_sneReg (h : OperandsReadable (.sneReg x y) s) :
    exec (.sneReg x y) s = .next (s.skipIf (s.getV x != s.getV y)) := by
  have readX : s.readable (.v x) = true := h _ (by simp [itemsRead])
  have readY : s.readable (.v y) = true := h _ (by simp [itemsRead])
  simp [exec, execSneReg, readX, readY]

/-- An instruction that answers a skip completes with PC alone written, by 2 exactly when the skip is taken. -/
theorem completes_of_exec_eq_skipIf {i : Instr} {taken : Bool} {P : Prop} [Decidable P]
    (h : exec i s = .next (s.skipIf taken)) (takenIff : taken = true ↔ P) :
    Completes i s [] [.pc] fun t => t.pc = if P then s.pc + 2 else s.pc := by
  refine ⟨_, h, sameExcept_skipIf s taken (List.mem_singleton_self _), ?_⟩
  rw [State.skipIf_eq]
  exact if_congr takenIff rfl rfl

end

/-! ## The obligations -/

/-- Settles O13: the two cases of the stack, and RET as the inverse of CALL. -/
theorem returnPops : Obligations.ReturnPops := by
  intro s
  refine ⟨fun l a h => ?_, fun h => ⟨_, exec_ret_of_stack_eq_nil h⟩, fun _ _ h => exec_ret_of_exec_call h⟩
  have answered := exec_ret_of_stack_eq_append h
  exact ⟨_, answered, exec_frame answered, rfl, rfl⟩

/-- Settles O14: the jump's own equation; its target 0xFFF is the last byte of the memory, and a target equal to PC
undoes the step's advance. -/
theorem jumpGoesToItsTarget : Obligations.JumpGoesToItsTarget := by
  intro nnn s
  constructor
  · refine ⟨_, exec_jp nnn s, exec_frame (exec_jp nnn s), addrOperand_toNat nnn, ?_⟩
    rintro rfl
    exact fetch_of_pc_eq_last rfl
  · intro hh hx op fetched decoded self
    rw [step_running hh hx, runInstruction_of_fetch_eq_ok fetched decoded]
    exact exec_jp_advance_of_self self

/-- Settles O15: the two cases of the stack's depth. -/
theorem callPushesItsReturnAddress : Obligations.CallPushesItsReturnAddress := by
  intro nnn s
  constructor
  · intro notFull
    have answered := exec_call_of_lt (nnn := nnn) notFull
    exact ⟨_, answered, exec_frame answered, addrOperand_toNat nnn, rfl⟩
  · intro full
    exact ⟨_, exec_call_of_full full.ge⟩

/-- Settles O17: each skip is `skipIf` of its comparison. -/
theorem registerSkips : Obligations.RegisterSkips := by
  intro x y kk s
  exact ⟨fun h => completes_of_exec_eq_skipIf (exec_seImm h) beq_iff_eq,
    fun h => completes_of_exec_eq_skipIf (exec_sneImm h) bne_iff_ne,
    fun h => completes_of_exec_eq_skipIf (exec_seReg h) beq_iff_eq,
    fun h => completes_of_exec_eq_skipIf (exec_sneReg h) bne_iff_ne⟩

end Sys2Proof.Machine
end

section
/-! PROOFS of the family 42_register_alu.md: LD Vx, kk (R140). -/
namespace Sys2Proof.Machine

theorem exec_ldImm (x : Reg) (kk : Byte) (s : State) : exec (.ldImm x kk) s = .next (s.setV x kk) := rfl

theorem getV_setV_same (x : Reg) (b : Byte) (s : State) : (s.setV x b).getV x = b := by
  rw [State.getV_setV, if_pos rfl]

/-- Settles O19: the answer is one register write, whose frame and whose value are known. -/
theorem loadImmediate : Obligations.LoadImmediate := by
  intro x kk s
  exact ⟨_, exec_ldImm x kk s, sameExcept_setV s kk (List.mem_singleton_self x), getV_setV_same x kk s⟩

end Sys2Proof.Machine
end

section
/-! PROOFS of the family 43_memory_index.md: LD I, nnn (R170). -/
namespace Sys2Proof.Machine

theorem exec_ldI (nnn : Addr) (s : State) : exec (.ldI nnn) s = .next (s.setI (addrOperand nnn)) := rfl

/-- Settles O27: the answer is one write of I, whose frame is known, and its operand is zero-extended. -/
theorem loadIndex : Obligations.LoadIndex := by
  intro nnn s
  exact ⟨_, exec_ldI nnn s, sameExcept_setI s _ (List.mem_singleton_self _), addrOperand_toNat nnn⟩

end Sys2Proof.Machine
end

section
/-! PROOFS of the family 45_timers_keys.md: the timer transfers (R210 to R212). -/
namespace Sys2Proof.Machine

/-- The tone follows ST (60_exceptions.md R247). -/
theorem State.toneOn_eq_true_iff {s : State} : s.toneOn = true ↔ s.st ≠ 0x00#8 := bne_iff_ne

/-! ## With its operand readable, each transfer is one write -/

section
variable {x : Reg} {s : State}

theorem exec_ldVxDT (h : OperandsReadable (.ldVxDT x) s) : exec (.ldVxDT x) s = .next (s.setV x s.dt) := by
  have dtReadable : s.readable .dt = true := h _ (List.mem_singleton_self _)
  simp [exec, execLdVxDT, dtReadable]

theorem exec_ldDTVx (h : OperandsReadable (.ldDTVx x) s) : exec (.ldDTVx x) s = .next (s.setDT (s.getV x)) := by
  have readX : s.readable (.v x) = true := h _ (List.mem_singleton_self _)
  simp [exec, execLdDTVx, readX]

theorem exec_ldSTVx (h : OperandsReadable (.ldSTVx x) s) : exec (.ldSTVx x) s = .next (s.setST (s.getV x)) := by
  have readX : s.readable (.v x) = true := h _ (List.mem_singleton_self _)
  simp [exec, execLdSTVx, readX]

end

/-- Settles O41: each transfer is one write, whose frame and whose value are known; the tone follows the ST written. -/
theorem timerTransfers : Obligations.TimerTransfers := by
  intro x s
  refine ⟨fun h => ?_, fun h => ?_, fun h => ?_⟩
  · exact ⟨_, exec_ldVxDT h, sameExcept_setV s s.dt (List.mem_singleton_self x), getV_setV_same x s.dt s⟩
  · exact ⟨_, exec_ldDTVx h, sameExcept_setDT s _ (List.mem_singleton_self _), State.setDT_dt ..⟩
  · exact ⟨_, exec_ldSTVx h, sameExcept_setST s _ (List.mem_singleton_self _), State.setST_st ..,
      State.toneOn_eq_true_iff⟩

end Sys2Proof.Machine
end

section
/-! PROOFS of the family 30_encoding.md: the decoder and the encoder undo each other, and the table's rows are what the
decoder accepts (R74 to R77). -/
namespace Sys2Proof

/-! ## A word from its class and its fields -/

section
variable {op : Word} {c : Nibble}

theorem packNNN_of_opClass (hc : opClass op = c) : packNNN c (opNNN op) = op := hc ▸ packNNN_fields op

theorem packXKK_of_opClass (hc : opClass op = c) : packXKK c (opX op) (opKK op) = op := hc ▸ packXKK_fields op

theorem packXYN_of_opClass (hc : opClass op = c) : packXYN c (opX op) (opY op) (opN op) = op :=
  hc ▸ packXYN_fields op

theorem packXKK_of_opKK {kk : Byte} (hc : opClass op = c) (hk : opKK op = kk) : packXKK c (opX op) kk = op :=
  hk ▸ packXKK_of_opClass hc

theorem packXYN_of_opN {n : Nibble} (hc : opClass op = c) (hn : opN op = n) :
    packXYN c (opX op) (opY op) n = op :=
  hn ▸ packXYN_of_opClass hc

end

/-! ## Decode after encode -/

theorem packNNN_inj {c : Nibble} {a b : Addr} : packNNN c a = packNNN c b ↔ a = b := by
  refine ⟨fun h => ?_, congrArg _⟩
  rw [← opNNN_packNNN c a, h, opNNN_packNNN]

/-- SYS with an operand of its own, that is not 0E0 and not 0EE, is read back (30_encoding.md R75). -/
theorem decode_encode_sys {nnn : Addr} (h : (Instr.sys nnn).wellFormed = true) :
    decode (encode (.sys nnn)) = .instr (.sys nnn) := by
  simp only [Instr.wellFormed, Bool.and_eq_true, bne_iff_ne] at h
  have notCls : packNNN 0x0#4 nnn ≠ 0x00E0#16 := mt (packNNN_inj (b := 0x0E0)).1 h.1
  have notRet : packNNN 0x0#4 nnn ≠ 0x00EE#16 := mt (packNNN_inj (b := 0x0EE)).1 h.2
  simp [encode, decode, decodeClass0, notCls, notRet]

/-- A word is read back by its class, and by its low nibble or byte where the class has several instructions. -/
theorem decode_encode {i : Instr} (h : i.wellFormed = true) : decode (encode i) = .instr i := by
  cases i with
  | sys nnn => exact decode_encode_sys h
  | cls => rfl
  | ret => rfl
  | _ => simp [encode, decode, decodeClass5, decodeClass8, decodeClass9, decodeClassE, decodeClassF]

/-- Settles O5: an instruction's word has its class and its operands as fields; SYS alone needs its operand checked. -/
theorem decodeOfEncode : Obligations.DecodeOfEncode := fun _ h => decode_encode h

/-! ## Encode after decode, class by class -/

section
variable {op : Word} {i : Instr}

theorem encode_of_decodeClass0 (hc : opClass op = 0x0#4) (h : decodeClass0 op = .instr i) :
    i.wellFormed = true ∧ encode i = op := by
  unfold decodeClass0 at h
  split at h
  · next e => cases h; exact ⟨rfl, e.symm⟩
  · next notCls =>
    split at h
    · next e => cases h; exact ⟨rfl, e.symm⟩
    · next notRet =>
      cases h
      have word : packNNN 0x0#4 (opNNN op) = op := packNNN_of_opClass hc
      refine ⟨?_, word⟩
      simp only [Instr.wellFormed, Bool.and_eq_true, bne_iff_ne]
      exact ⟨fun e => notCls (by rw [← word, e]; rfl), fun e => notRet (by rw [← word, e]; rfl)⟩

theorem encode_of_decodeClass5 (hc : opClass op = 0x5#4) (h : decodeClass5 op = .instr i) :
    i.wellFormed = true ∧ encode i = op := by
  unfold decodeClass5 at h
  split at h <;> cases h
  exact ⟨rfl, packXYN_of_opN hc ‹_›⟩

theorem encode_of_decodeClass8 (hc : opClass op = 0x8#4) (h : decodeClass8 op = .instr i) :
    i.wellFormed = true ∧ encode i = op := by
  unfold decodeClass8 at h
  split at h <;> cases h <;> exact ⟨rfl, packXYN_of_opN hc ‹_›⟩

theorem encode_of_decodeClass9 (hc : opClass op = 0x9#4) (h : decodeClass9 op = .instr i) :
    i.wellFormed = true ∧ encode i = op := by
  unfold decodeClass9 at h
  split at h <;> cases h
  exact ⟨rfl, packXYN_of_opN hc ‹_›⟩

theorem encode_of_decodeClassE (hc : opClass op = 0xE#4) (h : decodeClassE op = .instr i) :
    i.wellFormed = true ∧ encode i = op := by
  unfold decodeClassE at h
  split at h <;> cases h <;> exact ⟨rfl, packXKK_of_opKK hc ‹_›⟩

theorem encode_of_decodeClassF (hc : opClass op = 0xF#4) (h : decodeClassF op = .instr i) :
    i.wellFormed = true ∧ encode i = op := by
  unfold decodeClassF at h
  split at h <;> cases h <;> exact ⟨rfl, packXKK_of_opKK hc ‹_›⟩

theorem encode_of_decode (h : decode op = .instr i) : i.wellFormed = true ∧ encode i = op := by
  unfold decode at h
  split at h
  case h_1 hc => exact encode_of_decodeClass0 hc h
  case h_2 hc => cases h; exact ⟨rfl, packNNN_of_opClass hc⟩
  case h_3 hc => cases h; exact ⟨rfl, packNNN_of_opClass hc⟩
  case h_4 hc => cases h; exact ⟨rfl, packXKK_of_opClass hc⟩
  case h_5 hc => cases h; exact ⟨rfl, packXKK_of_opClass hc⟩
  case h_6 hc => exact encode_of_decodeClass5 hc h
  case h_7 hc => cases h; exact ⟨rfl, packXKK_of_opClass hc⟩
  case h_8 hc => cases h; exact ⟨rfl, packXKK_of_opClass hc⟩
  case h_9 hc => exact encode_of_decodeClass8 hc h
  case h_10 hc => exact encode_of_decodeClass9 hc h
  case h_11 hc => cases h; exact ⟨rfl, packNNN_of_opClass hc⟩
  case h_12 hc => cases h; exact ⟨rfl, packNNN_of_opClass hc⟩
  case h_13 hc => cases h; exact ⟨rfl, packXKK_of_opClass hc⟩
  case h_14 hc => cases h; exact ⟨rfl, packXYN_of_opClass hc⟩
  case h_15 hc => exact encode_of_decodeClassE hc h
  case h_16 =>
    have hc : opClass op = 0xF#4 := by
      generalize opClass op = c at *
      revert c
      decide
    exact encode_of_decodeClassF hc h

end

/-- Settles O6: class by class, a word that decodes is packed again from its class and its fields. -/
theorem encodeOfDecode : Obligations.EncodeOfDecode := fun _ _ h => encode_of_decode h

end Sys2Proof
end

section
/-! PROOFS of the family 30_encoding.md: the rows of the table as data, and the words that match none (R74 to R77). -/
namespace Sys2Proof

/-! ## What a match says of a word: its class, and its low nibble or byte -/

section
variable {op : Word} {c : Nibble}

/-- A row whose mask is the class nibble. -/
theorem packNNN_of_matchesRow (h : matchesRow op (0xF000#16, packNNN c 0x000) = true) : packNNN c (opNNN op) = op := by
  simp only [matchesRow, beq_iff_eq, and_mask_class] at h
  exact packNNN_of_opClass (by simpa using congrArg opClass h)

theorem packXKK_of_matchesRow (h : matchesRow op (0xF000#16, packNNN c 0x000) = true) :
    packXKK c (opX op) (opKK op) = op := by
  simp only [matchesRow, beq_iff_eq, and_mask_class] at h
  exact packXKK_of_opClass (by simpa using congrArg opClass h)

theorem packXYN_of_matchesRow (h : matchesRow op (0xF000#16, packNNN c 0x000) = true) :
    packXYN c (opX op) (opY op) (opN op) = op := by
  simp only [matchesRow, beq_iff_eq, and_mask_class] at h
  exact packXYN_of_opClass (by simpa using congrArg opClass h)

/-- A row whose mask is the class and the low nibble. -/
theorem packXYN_of_matchesRow_nibble {n : Nibble} (h : matchesRow op (0xF00F#16, packXYN c 0x0 0x0 n) = true) :
    packXYN c (opX op) (opY op) n = op := by
  simp only [matchesRow, beq_iff_eq, and_mask_nibble] at h
  exact packXYN_of_opN (by simpa using congrArg opClass h) (by simpa using congrArg opN h)

/-- A row whose mask is the class and the low byte. -/
theorem packXKK_of_matchesRow_byte {kk : Byte} (h : matchesRow op (0xF0FF#16, packXKK c 0x0 kk) = true) :
    packXKK c (opX op) kk = op := by
  simp only [matchesRow, beq_iff_eq, and_mask_byte] at h
  exact packXKK_of_opKK (by simpa using congrArg opClass h) (by simpa using congrArg opKK h)

end

/-- A row that is one word. -/
theorem matchesRow_full {op w : Word} : matchesRow op (0xFFFF#16, w) = true ↔ op = w := by
  rw [matchesRow, beq_iff_eq, and_mask_all]

/-! ## The rows and the instructions -/

/-- Each row of the table is the row of an instruction. -/
theorem exists_opcodeRow_eq : ∀ row ∈ opcodeRows, ∃ i, opcodeRow i = row := by
  simp only [opcodeRows, List.cons_append, List.nil_append, List.forall_mem_cons]
  exact ⟨⟨.cls, rfl⟩, ⟨.ret, rfl⟩, ⟨.sys 0, rfl⟩, ⟨.jp 0, rfl⟩, ⟨.call 0, rfl⟩, ⟨.seImm 0 0, rfl⟩,
    ⟨.sneImm 0 0, rfl⟩, ⟨.seReg 0 0, rfl⟩, ⟨.ldImm 0 0, rfl⟩, ⟨.addImm 0 0, rfl⟩, ⟨.ldReg 0 0, rfl⟩,
    ⟨.orReg 0 0, rfl⟩, ⟨.andReg 0 0, rfl⟩, ⟨.xorReg 0 0, rfl⟩, ⟨.addReg 0 0, rfl⟩, ⟨.subReg 0 0, rfl⟩,
    ⟨.shr 0 0, rfl⟩, ⟨.subn 0 0, rfl⟩, ⟨.shl 0 0, rfl⟩, ⟨.sneReg 0 0, rfl⟩, ⟨.ldI 0, rfl⟩, ⟨.jpV0 0, rfl⟩,
    ⟨.rnd 0 0, rfl⟩, ⟨.drw 0 0 0, rfl⟩, ⟨.skp 0, rfl⟩, ⟨.sknp 0, rfl⟩, ⟨.ldVxDT 0, rfl⟩, ⟨.ldVxK 0, rfl⟩,
    ⟨.ldDTVx 0, rfl⟩, ⟨.ldSTVx 0, rfl⟩, ⟨.addIVx 0, rfl⟩, ⟨.ldFVx 0, rfl⟩, ⟨.ldBVx 0, rfl⟩, ⟨.ldMemVx 0, rfl⟩,
    ⟨.ldVxMem 0, rfl⟩, fun _ h => absurd h List.not_mem_nil⟩

theorem opcodeRow_mem (i : Instr) : opcodeRow i ∈ opcodeRows := by
  cases i <;> simp [opcodeRow, opcodeRows]

/-- The word of an instruction matches its row. -/
theorem matchesRow_encode (i : Instr) : matchesRow (encode i) (opcodeRow i) = true := by
  cases i with
  | cls => exact Laws.EncodesItsRow.cls
  | ret => exact Laws.EncodesItsRow.ret
  | sys nnn => exact Laws.EncodesItsRow.sys nnn
  | jp nnn => exact Laws.EncodesItsRow.jp nnn
  | call nnn => exact Laws.EncodesItsRow.call nnn
  | seImm x kk => exact Laws.EncodesItsRow.seImm x kk
  | sneImm x kk => exact Laws.EncodesItsRow.sneImm x kk
  | seReg x y => exact Laws.EncodesItsRow.seReg x y
  | ldImm x kk => exact Laws.EncodesItsRow.ldImm x kk
  | addImm x kk => exact Laws.EncodesItsRow.addImm x kk
  | ldReg x y => exact Laws.EncodesItsRow.ldReg x y
  | orReg x y => exact Laws.EncodesItsRow.orReg x y
  | andReg x y => exact Laws.EncodesItsRow.andReg x y
  | xorReg x y => exact Laws.EncodesItsRow.xorReg x y
  | addReg x y => exact Laws.EncodesItsRow.addReg x y
  | subReg x y => exact Laws.EncodesItsRow.subReg x y
  | shr x y => exact Laws.EncodesItsRow.shr x y
  | subn x y => exact Laws.EncodesItsRow.subn x y
  | shl x y => exact Laws.EncodesItsRow.shl x y
  | sneReg x y => exact Laws.EncodesItsRow.sneReg x y
  | ldI nnn => exact Laws.EncodesItsRow.ldI nnn
  | jpV0 nnn => exact Laws.EncodesItsRow.jpV0 nnn
  | rnd x kk => exact Laws.EncodesItsRow.rnd x kk
  | drw x y n => exact Laws.EncodesItsRow.drw x y n
  | skp x => exact Laws.EncodesItsRow.skp x
  | sknp x => exact Laws.EncodesItsRow.sknp x
  | ldVxDT x => exact Laws.EncodesItsRow.ldVxDT x
  | ldVxK x => exact Laws.EncodesItsRow.ldVxK x
  | ldDTVx x => exact Laws.EncodesItsRow.ldDTVx x
  | ldSTVx x => exact Laws.EncodesItsRow.ldSTVx x
  | addIVx x => exact Laws.EncodesItsRow.addIVx x
  | ldFVx x => exact Laws.EncodesItsRow.ldFVx x
  | ldBVx x => exact Laws.EncodesItsRow.ldBVx x
  | ldMemVx x => exact Laws.EncodesItsRow.ldMemVx x
  | ldVxMem x => exact Laws.EncodesItsRow.ldVxMem x

/-- A word that matches the row of an instruction is the word of an instruction of that row. -/
theorem exists_encode_of_matchesRow {op : Word} (i : Instr) (h : matchesRow op (opcodeRow i) = true) :
    ∃ j, encode j = op ∧ opcodeRow j = opcodeRow i := by
  cases i with
  | cls => exact ⟨.cls, (matchesRow_full.1 h).symm, rfl⟩
  | ret => exact ⟨.ret, (matchesRow_full.1 h).symm, rfl⟩
  | sys _ => exact ⟨.sys (opNNN op), packNNN_of_matchesRow h, rfl⟩
  | jp _ => exact ⟨.jp (opNNN op), packNNN_of_matchesRow h, rfl⟩
  | call _ => exact ⟨.call (opNNN op), packNNN_of_matchesRow h, rfl⟩
  | seImm _ _ => exact ⟨.seImm (opX op) (opKK op), packXKK_of_matchesRow h, rfl⟩
  | sneImm _ _ => exact ⟨.sneImm (opX op) (opKK op), packXKK_of_matchesRow h, rfl⟩
  | seReg _ _ => exact ⟨.seReg (opX op) (opY op), packXYN_of_matchesRow_nibble h, rfl⟩
  | ldImm _ _ => exact ⟨.ldImm (opX op) (opKK op), packXKK_of_matchesRow h, rfl⟩
  | addImm _ _ => exact ⟨.addImm (opX op) (opKK op), packXKK_of_matchesRow h, rfl⟩
  | ldReg _ _ => exact ⟨.ldReg (opX op) (opY op), packXYN_of_matchesRow_nibble h, rfl⟩
  | orReg _ _ => exact ⟨.orReg (opX op) (opY op), packXYN_of_matchesRow_nibble h, rfl⟩
  | andReg _ _ => exact ⟨.andReg (opX op) (opY op), packXYN_of_matchesRow_nibble h, rfl⟩
  | xorReg _ _ => exact ⟨.xorReg (opX op) (opY op), packXYN_of_matchesRow_nibble h, rfl⟩
  | addReg _ _ => exact ⟨.addReg (opX op) (opY op), packXYN_of_matchesRow_nibble h, rfl⟩
  | subReg _ _ => exact ⟨.subReg (opX op) (opY op), packXYN_of_matchesRow_nibble h, rfl⟩
  | shr _ _ => exact ⟨.shr (opX op) (opY op), packXYN_of_matchesRow_nibble h, rfl⟩
  | subn _ _ => exact ⟨.subn (opX op) (opY op), packXYN_of_matchesRow_nibble h, rfl⟩
  | shl _ _ => exact ⟨.shl (opX op) (opY op), packXYN_of_matchesRow_nibble h, rfl⟩
  | sneReg _ _ => exact ⟨.sneReg (opX op) (opY op), packXYN_of_matchesRow_nibble h, rfl⟩
  | ldI _ => exact ⟨.ldI (opNNN op), packNNN_of_matchesRow h, rfl⟩
  | jpV0 _ => exact ⟨.jpV0 (opNNN op), packNNN_of_matchesRow h, rfl⟩
  | rnd _ _ => exact ⟨.rnd (opX op) (opKK op), packXKK_of_matchesRow h, rfl⟩
  | drw _ _ _ => exact ⟨.drw (opX op) (opY op) (opN op), packXYN_of_matchesRow h, rfl⟩
  | skp _ => exact ⟨.skp (opX op), packXKK_of_matchesRow_byte h, rfl⟩
  | sknp _ => exact ⟨.sknp (opX op), packXKK_of_matchesRow_byte h, rfl⟩
  | ldVxDT _ => exact ⟨.ldVxDT (opX op), packXKK_of_matchesRow_byte h, rfl⟩
  | ldVxK _ => exact ⟨.ldVxK (opX op), packXKK_of_matchesRow_byte h, rfl⟩
  | ldDTVx _ => exact ⟨.ldDTVx (opX op), packXKK_of_matchesRow_byte h, rfl⟩
  | ldSTVx _ => exact ⟨.ldSTVx (opX op), packXKK_of_matchesRow_byte h, rfl⟩
  | addIVx _ => exact ⟨.addIVx (opX op), packXKK_of_matchesRow_byte h, rfl⟩
  | ldFVx _ => exact ⟨.ldFVx (opX op), packXKK_of_matchesRow_byte h, rfl⟩
  | ldBVx _ => exact ⟨.ldBVx (opX op), packXKK_of_matchesRow_byte h, rfl⟩
  | ldMemVx _ => exact ⟨.ldMemVx (opX op), packXKK_of_matchesRow_byte h, rfl⟩
  | ldVxMem _ => exact ⟨.ldVxMem (opX op), packXKK_of_matchesRow_byte h, rfl⟩

/-- Only SYS 0E0 and SYS 0EE are ill-formed, and their words are those of CLS and RET (30_encoding.md R75). -/
theorem word_of_not_wellFormed {i : Instr} (h : ¬ i.wellFormed = true) :
    (encode i = 0x00E0#16 ∨ encode i = 0x00EE#16) ∧ opcodeRow i = (0xF000#16, 0x0000#16) := by
  cases i with
  | sys nnn =>
    have illFormed : nnn = 0x0E0#12 ∨ nnn = 0x0EE#12 := by
      simpa only [Instr.wellFormed, Bool.and_eq_true, bne_iff_ne, ← not_or, not_not] using h
    refine ⟨illFormed.imp ?_ ?_, rfl⟩ <;> (rintro rfl; rfl)
  | _ => exact absurd rfl h

/-- A word that matches a row decodes to an instruction of that row, but 00E0 and 00EE against 0NNN. -/
theorem decode_of_matchesRow {op : Word} {row : Word × Word} (hrow : row ∈ opcodeRows)
    (h : matchesRow op row = true) :
    (∃ i, decode op = .instr i ∧ opcodeRow i = row) ∨
      ((op = 0x00E0#16 ∨ op = 0x00EE#16) ∧ row = (0xF000#16, 0x0000#16)) := by
  obtain ⟨i, rfl⟩ := exists_opcodeRow_eq row hrow
  obtain ⟨j, rfl, sameRow⟩ := exists_encode_of_matchesRow i h
  by_cases wf : j.wellFormed = true
  · exact .inl ⟨j, decode_encode wf, sameRow⟩
  · exact .inr (sameRow ▸ word_of_not_wellFormed wf)

/-! ## The unknown words -/

theorem eq_of_decode_unknown {op w : Word} (h : decode op = .unknown w) : w = op := by
  unfold decode decodeClass0 decodeClass5 decodeClass8 decodeClass9 decodeClassE decodeClassF at h
  repeat' split at h
  all_goals cases h <;> rfl

theorem matchesRow_of_decode {op : Word} {i : Instr} (h : decode op = .instr i) :
    matchesRow op (opcodeRow i) = true := by
  rw [← (encode_of_decode h).2]
  exact matchesRow_encode i

theorem decode_eq_unknown_iff {op : Word} :
    decode op = .unknown op ↔ ∀ row ∈ opcodeRows, matchesRow op row = false := by
  constructor
  · intro unknown row hrow
    rw [Bool.eq_false_iff]
    intro matched
    rcases decode_of_matchesRow hrow matched with ⟨i, known, _⟩ | ⟨rfl | rfl, _⟩
    · rw [known] at unknown; cases unknown
    · cases unknown
    · cases unknown
  · intro noRow
    cases decoded : decode op with
    | instr i => exact absurd (matchesRow_of_decode decoded) (by simp [noRow _ (opcodeRow_mem i)])
    | unknown w => rw [eq_of_decode_unknown decoded]

/-- Settles O7: a word that matches a row decodes, a word that decodes matches its instruction's row. -/
theorem unknownExactlyWhenNoRowMatches : Obligations.UnknownExactlyWhenNoRowMatches :=
  fun _ => ⟨decode_eq_unknown_iff, fun _ => eq_of_decode_unknown, fun _ => matchesRow_of_decode⟩

/-! ## The rows are disjoint -/

/-- In the table's order no row stands twice, and the rows of CLS and RET do not stand after that of SYS. -/
theorem opcodeRows_order : opcodeRows.Pairwise fun a b => a ≠ b ∧
    (a = (0xF000#16, 0x0000#16) → b ≠ opcodeRow .cls ∧ b ≠ opcodeRow .ret) := by
  decide

theorem rows_disjoint {op : Word} {a b : Word × Word} (ha : a ∈ opcodeRows) (hb : b ∈ opcodeRows) (hne : a ≠ b)
    (order : a = (0xF000#16, 0x0000#16) → b ≠ opcodeRow .cls ∧ b ≠ opcodeRow .ret)
    (ma : matchesRow op a = true) (mb : matchesRow op b = true) :
    (op = 0x00E0#16 ∨ op = 0x00EE#16) ∧ b = (0xF000#16, 0x0000#16) := by
  rcases decode_of_matchesRow hb mb with ⟨j, decodedB, rowB⟩ | exception
  · rcases decode_of_matchesRow ha ma with ⟨i, decodedA, rowA⟩ | ⟨rfl | rfl, sys⟩
    · rw [decodedA] at decodedB
      cases decodedB
      exact absurd (rowA.symm.trans rowB) hne
    · cases decodedB
      exact absurd rowB.symm (order sys).1
    · cases decodedB
      exact absurd rowB.symm (order sys).2
  · exact exception

/-- Settles O8: a word decodes one way, so two rows it matches are one row, but for 00E0 and 00EE against 0NNN. -/
theorem rowsAreDisjoint : Obligations.RowsAreDisjoint :=
  opcodeRows_order.imp_of_mem fun ha hb h _ => rows_disjoint ha hb h.1 h.2

/-- Settles O4: each word is one run of the decoder. -/
theorem tableWordsDecode : Obligations.TableWordsDecode := by
  unfold Obligations.TableWordsDecode
  decide

end Sys2Proof
end

section
/-! PROOFS of the family 10_state.md: the reads of items never written (R39), and what an answered instruction has read. -/
namespace Sys2Proof.Machine

/-! ## The first item that may not be read -/

/-- The first of the items that the state does not let an instruction read. -/
def State.firstUnreadable (items : List Item) (s : State) : Option Item := items.find? fun item => !s.readable item

section
variable {s : State} {item : Item}

theorem firstUnreadable_cons_of_readable {a : Item} {rest : List Item} (h : s.readable a = true) :
    s.firstUnreadable (a :: rest) = s.firstUnreadable rest := by
  simp [State.firstUnreadable, h]

theorem firstUnreadable_cons_of_not_readable {a : Item} {rest : List Item} (h : s.readable a = false) :
    s.firstUnreadable (a :: rest) = some a := by
  simp [State.firstUnreadable, h]

theorem firstUnreadable_append_cons {before after : List Item} (hb : ∀ j ∈ before, s.readable j = true)
    (hi : s.readable item = false) : s.firstUnreadable (before ++ item :: after) = some item := by
  induction before with
  | nil => exact firstUnreadable_cons_of_not_readable hi
  | cons a rest ih =>
    rw [List.forall_mem_cons] at hb
    rw [List.cons_append, firstUnreadable_cons_of_readable hb.1, ih hb.2]

theorem exists_firstUnreadable {items : List Item} (hm : item ∈ items) (h : s.readable item = false) :
    ∃ a, s.firstUnreadable items = some a :=
  Option.isSome_iff_exists.1 (List.find?_isSome.2 ⟨item, hm, by simp [h]⟩)

theorem readable_eq_false (policy : s.cfg.uninitPolicy = .fault) (h : s.written.has item = false) :
    s.readable item = false := by
  simp [State.readable, policy, h]

/-! ## A meaning that reads stops at the first item it may not read -/

theorem stops_nil {P : Prop} (h : s.firstUnreadable [] = some item) : P := by cases h

variable {rest : List Item}

theorem stops_readV {x : Reg} {f : Byte → Except Fault State}
    (next : s.firstUnreadable rest = some item → finish (f (s.getV x)) = .fault (.uninitialisedRead item))
    (h : s.firstUnreadable (.v x :: rest) = some item) :
    finish (readV x s >>= f) = .fault (.uninitialisedRead item) := by
  cases hr : s.readable (.v x) with
  | true => rw [readV_eq_ok hr]; exact next (firstUnreadable_cons_of_readable hr ▸ h)
  | false =>
    rw [firstUnreadable_cons_of_not_readable hr] at h
    cases h
    rw [readV_eq_error hr]; rfl

theorem stops_readI {f : Word → Except Fault State}
    (next : s.firstUnreadable rest = some item → finish (f s.i) = .fault (.uninitialisedRead item))
    (h : s.firstUnreadable (.i :: rest) = some item) :
    finish (readI s >>= f) = .fault (.uninitialisedRead item) := by
  cases hr : s.readable .i with
  | true => rw [readI_eq_ok hr]; exact next (firstUnreadable_cons_of_readable hr ▸ h)
  | false =>
    rw [firstUnreadable_cons_of_not_readable hr] at h
    cases h
    rw [readI_eq_error hr]; rfl

theorem stops_readDT {f : Byte → Except Fault State} (h : s.firstUnreadable [.dt] = some item) :
    finish (readDT s >>= f) = .fault (.uninitialisedRead item) := by
  cases hr : s.readable .dt with
  | true => exact stops_nil (firstUnreadable_cons_of_readable hr ▸ h)
  | false =>
    rw [firstUnreadable_cons_of_not_readable hr] at h
    cases h
    rw [readDT_eq_error hr]; rfl

/-- DRW reads nothing while it stalls, and I only when it has rows (44_display_random.md R193, R196). -/
theorem execDrw_stops {x y : Reg} {n : Nibble} (h : s.firstUnreadable (itemsRead s (.drw x y n)) = some item) :
    exec (.drw x y n) s = .fault (.uninitialisedRead item) := by
  simp only [itemsRead] at h
  simp only [exec, execDrw]
  split at h
  · exact stops_nil h
  · next running =>
    rw [if_neg running]
    split at h
    · exact stops_readV (stops_readV stops_nil) h
    · next rows =>
      refine stops_readV (stops_readV fun hI => ?_) h
      rw [spriteRows, if_neg rows, bind_assoc]
      exact stops_readI stops_nil hI

/-- An instruction stops at the first item it may not read (10_state.md R39); FX55 writes between its reads. -/
theorem exec_stops_at_firstUnreadable {i : Instr} (hi : ∀ x, i ≠ .ldMemVx x)
    (h : s.firstUnreadable (itemsRead s i) = some item) : exec i s = .fault (.uninitialisedRead item) := by
  cases i with
  | ldMemVx x => exact absurd rfl (hi x)
  | drw x y n => exact execDrw_stops h
  | seImm x kk => exact stops_readV stops_nil h
  | sneImm x kk => exact stops_readV stops_nil h
  | seReg x y => exact stops_readV (stops_readV stops_nil) h
  | sneReg x y => exact stops_readV (stops_readV stops_nil) h
  | jpV0 nnn => exact stops_readV stops_nil h
  | addImm x kk => exact stops_readV stops_nil h
  | ldReg x y => exact stops_readV stops_nil h
  | orReg x y => exact stops_readV (stops_readV stops_nil) h
  | andReg x y => exact stops_readV (stops_readV stops_nil) h
  | xorReg x y => exact stops_readV (stops_readV stops_nil) h
  | addReg x y => exact stops_readV (stops_readV stops_nil) h
  | subReg x y => exact stops_readV (stops_readV stops_nil) h
  | subn x y => exact stops_readV (stops_readV stops_nil) h
  | shr x y => exact stops_readV stops_nil h
  | shl x y => exact stops_readV stops_nil h
  | addIVx x => exact stops_readI (stops_readV stops_nil) h
  | ldFVx x => exact stops_readV stops_nil h
  | ldBVx x => exact stops_readV (stops_readI stops_nil) h
  | ldVxMem x => exact stops_readI stops_nil h
  | skp x => exact stops_readV stops_nil h
  | sknp x => exact stops_readV stops_nil h
  | ldVxDT x => exact stops_readDT h
  | ldDTVx x => exact stops_readV stops_nil h
  | ldSTVx x => exact stops_readV stops_nil h
  | _ => exact stops_nil h

end

/-! ## FX55, whose reads and writes alternate (43_memory_index.md R174) -/

theorem execLdMemVx_stops_at_i {x : Reg} {s : State} (h : s.readable .i = false) :
    exec (.ldMemVx x) s = .fault (.uninitialisedRead .i) := by
  simp [exec, execLdMemVx, readI_eq_error h]

theorem exec_ldMemVx_of_storeRegs_eq_error {x : Reg} {s : State} {f : Fault} (hi : s.readable .i = true)
    (h : storeRegs s.i (x.toNat + 1) 0 s = .error f) : exec (.ldMemVx x) s = .fault f := by
  simp [exec, execLdMemVx, hi, h]

/-- FX55 stops at the first register it may not read, when every address before that is in the memory. -/
theorem execLdMemVx_stops_at_register {x : Reg} {s : State} {before after : List Item} {item : Item}
    (reads : (List.range (x.toNat + 1)).map (fun k => Item.v (BitVec.ofNat 4 k)) = before ++ item :: after)
    (hi : s.readable .i = true) (hb : ∀ j ∈ before, s.readable j = true) (hu : s.readable item = false)
    (ha : ∀ k < before.length, dataAddress s.i k < 4096) :
    exec (.ldMemVx x) s = .fault (.uninitialisedRead item) := by
  have inRange : before.length < x.toNat + 1 := by
    have := congrArg List.length reads
    simp at this
    omega
  have itemAt : item = .v (BitVec.ofNat 4 before.length) := by
    have := congrArg (fun l => l[before.length]?) reads
    simpa [inRange, eq_comm] using this
  have registerBefore : ∀ j < before.length, s.readable (.v (BitVec.ofNat 4 j)) = true := by
    intro j hj
    have atJ := congrArg (fun l => l[j]?) reads
    simp only [List.getElem?_append_left hj, List.getElem?_map, List.getElem?_range (show j < x.toNat + 1 by omega),
      Option.map_some] at atJ
    exact hb _ (List.mem_of_getElem? atJ.symm)
  subst itemAt
  exact exec_ldMemVx_of_storeRegs_eq_error hi (storeRegs_stops_at_read (Nat.zero_le _) (by omega)
    (fun j _ hj => registerBefore j hj) (fun j _ hj => ha j hj) hu)

/-- Both cases of FX55's first unreadable item: I, or a register. -/
theorem execLdMemVx_stops {x : Reg} {s : State} {before after : List Item} {item : Item}
    (reads : itemsRead s (.ldMemVx x) = before ++ item :: after) (hb : ∀ j ∈ before, s.readable j = true)
    (hu : s.readable item = false) (ha : ∀ k, k + 1 < before.length → dataAddress s.i k < 4096) :
    exec (.ldMemVx x) s = .fault (.uninitialisedRead item) := by
  simp only [itemsRead] at reads
  cases before with
  | nil =>
    cases reads
    exact execLdMemVx_stops_at_i hu
  | cons first before =>
    rw [List.cons_append, List.cons.injEq] at reads
    rw [List.forall_mem_cons, ← reads.1] at hb
    exact execLdMemVx_stops_at_register reads.2 hb.1 hb.2 hu fun k hk => ha k (by simpa using hk)

/-- FX55 stops at its first address outside the memory, when every register up to that one is readable. -/
theorem execLdMemVx_stops_at_address {x : Reg} {k : Nat} {s : State} (hk : k ≤ x.toNat) (hi : s.readable .i = true)
    (hr : ∀ r : Reg, r.toNat ≤ k → s.readable (.v r) = true) (hb : ∀ j < k, dataAddress s.i j < 4096)
    (ha : 4096 ≤ dataAddress s.i k) :
    exec (.ldMemVx x) s = .fault (.memoryOutOfRange (dataAddress s.i k)) := by
  refine exec_ldMemVx_of_storeRegs_eq_error hi
    (storeRegs_stops_at_address (Nat.zero_le _) (by omega) (fun j _ hj => hr _ ?_) (fun j _ hj => hb j hj) ha)
  rw [BitVec.toNat_ofNat]
  exact (Nat.mod_le _ _).trans hj

/-! ## An instruction that answers could read its operands -/

theorem operandsReadable_ldMemVx_of_next {x : Reg} {s t : State} (h : exec (.ldMemVx x) s = .next t) :
    OperandsReadable (.ldMemVx x) s := by
  have iReadable : s.readable .i = true := by
    by_contra hi
    rw [execLdMemVx_stops_at_i (Bool.not_eq_true _ ▸ hi)] at h
    cases h
  obtain ⟨u, stored, _⟩ := execLdMemVx_next h
  obtain ⟨_, _, _, _, _, registers⟩ := storeRegs_eq_ok stored
  intro item hm
  simp only [itemsRead, List.mem_cons, List.mem_map, List.mem_range] at hm
  rcases hm with rfl | ⟨k, hk, rfl⟩
  · exact iReadable
  · exact registers k (Nat.zero_le _) (by omega)

theorem operandsReadable_of_next {i : Instr} {s t : State} (h : exec i s = .next t) : OperandsReadable i s := by
  by_cases hi : ∃ x, i = .ldMemVx x
  · obtain ⟨x, rfl⟩ := hi
    exact operandsReadable_ldMemVx_of_next h
  · intro item hm
    by_contra hr
    obtain ⟨a, first⟩ := exists_firstUnreadable hm (Bool.not_eq_true _ ▸ hr)
    rw [exec_stops_at_firstUnreadable (not_exists.1 hi) first] at h
    cases h

/-! ## The obligation -/

theorem construct_written_has (cfg : Config) (item : Item) : (State.construct cfg).written.has item = false := by
  cases item <;> simp [State.construct, Written.has]

/-- Settles O50: the first unreadable item stops every instruction; FX55's reads alternate with its stores. -/
theorem uninitialisedReadsStop : Obligations.UninitialisedReadsStop := by
  refine ⟨construct_written_has, ?_, fun x k s hk hi hr hb ha => execLdMemVx_stops_at_address hk hi hr hb ha⟩
  intro i s before after item reads hb policy unwritten addresses
  have hu : s.readable item = false := readable_eq_false policy unwritten
  by_cases hi : ∃ x, i = .ldMemVx x
  · obtain ⟨x, rfl⟩ := hi
    exact execLdMemVx_stops reads hb hu (addresses x rfl)
  · exact exec_stops_at_firstUnreadable (not_exists.1 hi) (reads ▸ firstUnreadable_append_cons hb hu)

end Sys2Proof.Machine
end

section
/-! PROOFS: what each instruction answers when its operands are readable, one equation for each instruction that reads
(10_state.md R39 apart, which is O50). The skips and timer transfers stand in their families above. -/
namespace Sys2Proof.Machine

section
variable {x y : Reg} {kk : Byte} {n : Nibble} {nnn : Addr} {s : State}

theorem exec_jpV0 (h : OperandsReadable (.jpV0 nnn) s) :
    exec (.jpV0 nnn) s = .next (s.setPC (indexedTarget nnn (s.getV 0x0#4))) := by
  have readV0 : s.readable (.v 0x0#4) = true := h _ (by simp [itemsRead])
  simp [exec, execJpV0, readV0]

theorem exec_addImm (h : OperandsReadable (.addImm x kk) s) :
    exec (.addImm x kk) s = .next (s.setV x (BitVec.ofNat 8 ((s.getV x).toNat + kk.toNat))) := by
  have readX : s.readable (.v x) = true := h _ (by simp [itemsRead])
  simp [exec, execAddImm, readX]

theorem exec_ldReg (h : OperandsReadable (.ldReg x y) s) : exec (.ldReg x y) s = .next (s.setV x (s.getV y)) := by
  have readY : s.readable (.v y) = true := h _ (by simp [itemsRead])
  simp [exec, execLdReg, readY]

theorem logicOp_eq_ok (f : Byte → Byte → Byte) (hx : s.readable (.v x) = true) (hy : s.readable (.v y) = true) :
    logicOp f x y s = .ok (s.setV x (f (s.getV x) (s.getV y))).logicReset := by
  simp [logicOp, hx, hy]

theorem exec_orReg (h : OperandsReadable (.orReg x y) s) :
    exec (.orReg x y) s = .next (s.setV x (s.getV x ||| s.getV y)).logicReset := by
  rw [exec, execOrReg, logicOp_eq_ok _ (h _ (by simp [itemsRead])) (h _ (by simp [itemsRead])), finish_ok]

theorem exec_andReg (h : OperandsReadable (.andReg x y) s) :
    exec (.andReg x y) s = .next (s.setV x (s.getV x &&& s.getV y)).logicReset := by
  rw [exec, execAndReg, logicOp_eq_ok _ (h _ (by simp [itemsRead])) (h _ (by simp [itemsRead])), finish_ok]

theorem exec_xorReg (h : OperandsReadable (.xorReg x y) s) :
    exec (.xorReg x y) s = .next (s.setV x (s.getV x ^^^ s.getV y)).logicReset := by
  rw [exec, execXorReg, logicOp_eq_ok _ (h _ (by simp [itemsRead])) (h _ (by simp [itemsRead])), finish_ok]

theorem exec_addReg (h : OperandsReadable (.addReg x y) s) :
    exec (.addReg x y) s = .next ((s.setV x (BitVec.ofNat 8 ((s.getV x).toNat + (s.getV y).toNat))).setFlag
      (carryFlag (s.getV x) (s.getV y))) := by
  have readX : s.readable (.v x) = true := h _ (by simp [itemsRead])
  have readY : s.readable (.v y) = true := h _ (by simp [itemsRead])
  simp [exec, execAddReg, readX, readY]

theorem exec_subReg (h : OperandsReadable (.subReg x y) s) :
    exec (.subReg x y) s = .next (s.setDifference x (s.getV x) (s.getV y)) := by
  have readX : s.readable (.v x) = true := h _ (by simp [itemsRead])
  have readY : s.readable (.v y) = true := h _ (by simp [itemsRead])
  simp [exec, execSubReg, readX, readY]

theorem exec_subn (h : OperandsReadable (.subn x y) s) :
    exec (.subn x y) s = .next (s.setDifference x (s.getV y) (s.getV x)) := by
  have readX : s.readable (.v x) = true := h _ (by simp [itemsRead])
  have readY : s.readable (.v y) = true := h _ (by simp [itemsRead])
  simp [exec, execSubn, readX, readY]

theorem exec_shr (h : OperandsReadable (.shr x y) s) :
    exec (.shr x y) s = .next ((s.setV x (s.getV (shiftSource x y s) >>> 1)).setFlag
      (shrFlag (s.getV (shiftSource x y s)))) := by
  have readSource : s.readable (.v (shiftSource x y s)) = true := h _ (by simp [itemsRead])
  simp [exec, execShr, readSource]

theorem exec_shl (h : OperandsReadable (.shl x y) s) :
    exec (.shl x y) s = .next ((s.setV x (s.getV (shiftSource x y s) <<< 1)).setFlag
      (shlFlag (s.getV (shiftSource x y s)))) := by
  have readSource : s.readable (.v (shiftSource x y s)) = true := h _ (by simp [itemsRead])
  simp [exec, execShl, readSource]

theorem exec_addIVx (h : OperandsReadable (.addIVx x) s) :
    exec (.addIVx x) s = .next (s.setI (BitVec.ofNat 16 (s.i.toNat + (s.getV x).toNat))) := by
  have readX : s.readable (.v x) = true := h _ (by simp [itemsRead])
  have readI : s.readable .i = true := h _ (by simp [itemsRead])
  simp [exec, execAddIVx, readX, readI]

theorem exec_ldFVx (h : OperandsReadable (.ldFVx x) s) :
    exec (.ldFVx x) s = .next (s.setI (glyphAddress (s.getV x))) := by
  have readX : s.readable (.v x) = true := h _ (by simp [itemsRead])
  simp [exec, execLdFVx, readX]

theorem setWidth_four (b : Byte) : b.setWidth 4 = BitVec.ofNat 4 b.toNat :=
  BitVec.eq_of_toNat_eq (by simp)

theorem keyIndex_eq_ok {b : Byte} (h : b.toNat ≤ 0xF ∨ s.cfg.keyIndexPolicy = .lowNibble) :
    keyIndex b s = .ok (BitVec.ofNat 4 b.toNat) := by
  rw [← setWidth_four]
  rcases keyIndex_cases b s with ⟨_, e⟩ | ⟨above, policy, _⟩
  · exact e
  · rcases h with h | h
    · omega
    · rw [policy] at h; cases h

theorem keyIndex_eq_error {b : Byte} (above : 0xF < b.toNat) (policy : s.cfg.keyIndexPolicy = .fault) :
    keyIndex b s = .error (.keyIndexOutOfRange b) := by
  rcases keyIndex_cases b s with ⟨h | h, _⟩ | ⟨_, _, e⟩
  · omega
  · rw [policy] at h; cases h
  · exact e

theorem exec_skp (h : OperandsReadable (.skp x) s) :
    exec (.skp x) s = finish ((keyIndex (s.getV x) s).map fun k => s.skipIf (s.pressed k)) := by
  have readX : s.readable (.v x) = true := h _ (by simp [itemsRead])
  rw [exec, execSkp, readV_eq_ok readX, except_ok_bind]
  cases keyIndex (s.getV x) s <;> rfl

theorem exec_sknp (h : OperandsReadable (.sknp x) s) :
    exec (.sknp x) s = finish ((keyIndex (s.getV x) s).map fun k => s.skipIf (!s.pressed k)) := by
  have readX : s.readable (.v x) = true := h _ (by simp [itemsRead])
  rw [exec, execSknp, readV_eq_ok readX, except_ok_bind]
  cases keyIndex (s.getV x) s <;> rfl

/-- A draw that the throttle does not hold back (44_display_random.md R191). -/
theorem exec_drw (h : OperandsReadable (.drw x y n) s) (running : s.drawStalls = false) :
    exec (.drw x y n) s =
      .next (((s.setDisp (drawn x y n s).1).setFlag (drawn x y n s).2).setRedraw true) := by
  simp only [OperandsReadable, itemsRead, running, Bool.false_eq_true, if_false] at h
  have readX : s.readable (.v x) = true := h _ (by split <;> simp)
  have readY : s.readable (.v y) = true := h _ (by split <;> simp)
  have readRows : n = 0#4 ∨ s.readable .i = true := by
    by_cases hn : n = 0#4
    · exact .inl hn
    · exact .inr (h _ (by simp [hn]))
  simp [exec, execDrw, running, drawSprite, readX, readY, spriteRows_eq_ok readRows, drawn, spriteBytes]

theorem exec_ldMemVx (hi : s.readable .i = true) :
    exec (.ldMemVx x) s = finish ((storeRegs s.i (x.toNat + 1) 0 s).map fun t => t.advanceIndex x) := by
  rw [exec, execLdMemVx, readI_eq_ok hi, except_ok_bind]
  cases storeRegs s.i (x.toNat + 1) 0 s <;> rfl

theorem exec_ldVxMem (hi : s.readable .i = true) :
    exec (.ldVxMem x) s = finish ((loadRegs s.i (x.toNat + 1) 0 s).map fun t => t.advanceIndex x) := by
  rw [exec, execLdVxMem, readI_eq_ok hi, except_ok_bind]
  cases loadRegs s.i (x.toNat + 1) 0 s <;> rfl

end

/-! ## Completion -/

theorem Completes.imp {i : Instr} {s : State} {regs : List Reg} {parts : List Part} {P Q : State → Prop}
    (h : Completes i s regs parts P) (pq : ∀ t, P t → Q t) : Completes i s regs parts Q := by
  obtain ⟨t, answered, frame, p⟩ := h
  exact ⟨t, answered, frame, pq t p⟩

@[simp] theorem State.getV_setFlag (f : Bool) (r : Reg) (s : State) :
    (s.setFlag f).getV r = if 0xF#4 = r then flagByte f else s.getV r :=
  State.getV_setV ..

/-- A result and then the flag: with x = 0xF the flag stays (00_scope.md R12; log 9). -/
theorem completes_of_exec_eq_setFlag {i : Instr} {x : Reg} {b : Byte} {f : Bool} {s : State}
    (h : exec i s = .next ((s.setV x b).setFlag f)) :
    Completes i s [x, 0xF#4] [] fun t => t.getV 0xF#4 = flagByte f ∧ (x ≠ 0xF#4 → t.getV x = b) := by
  refine ⟨_, h, (sameExcept_setV s b (by simp)).trans (sameExcept_setFlag _ f (by simp)), by simp, fun hx => ?_⟩
  simp [Ne.symm hx]

end Sys2Proof.Machine
end

section
/-! PROOFS of the families 41_control_flow.md (SYS, the stack errors, JP V0) and 42_register_alu.md. -/
namespace Sys2Proof.Machine

/-! ## Control flow -/

/-- Settles O12: the two settings of `SYS_POLICY`. -/
theorem sysFollowsItsPolicy : Obligations.SysFollowsItsPolicy := by
  intro nnn s
  constructor
  · intro nop
    simp [exec, execSys, nop]
  · intro fatal
    exact ⟨sysWord nnn, sysWord_toNat nnn, by simp [exec, execSys, fatal, raiseFatal, State.opAddress]⟩

/-- Settles O16: CALL on a full stack and RET on an empty one record the instruction's own address. -/
theorem stackErrorsRecordTheInstruction : Obligations.StackErrorsRecordTheInstruction :=
  fun _ _ => ⟨exec_call_of_full, exec_ret_of_stack_eq_nil⟩

/-- Settles O18: the jump writes PC alone, and its target is below 65536. -/
theorem indexedJumpAddsV0 : Obligations.IndexedJumpAddsV0 :=
  fun nnn s h => ⟨_, exec_jpV0 h, sameExcept_setPC s _ (by simp), indexedTarget_toNat nnn _⟩

/-! ## Register transfer and logic -/

/-- Settles O20: both write V[x] alone. -/
theorem addImmediateAndCopyLeaveTheFlag : Obligations.AddImmediateAndCopyLeaveTheFlag := by
  intro x y kk s
  constructor
  · intro h
    refine ⟨_, exec_addImm h, sameExcept_setV s _ (by simp), ?_⟩
    simp only [getV_setV_same, BitVec.toNat_ofNat]
  · intro h
    exact ⟨_, exec_ldReg h, sameExcept_setV s _ (by simp), getV_setV_same ..⟩

/-- OR, AND and XOR from their equation and from what they do to one bit. -/
theorem completes_of_exec_eq_logicReset {i : Instr} {x : Reg} {b : Byte} {bit : Nat → Bool} {s : State}
    (h : exec i s = .next (s.setV x b).logicReset) (bits : ∀ k < 8, b.getLsbD k = bit k) :
    Completes i s (if s.cfg.qVfReset then [x, 0xF#4] else [x]) [] fun t =>
      (s.cfg.qVfReset = true → t.getV 0xF#4 = 0x00#8) ∧
      ((x ≠ 0xF#4 ∨ s.cfg.qVfReset = false) → ∀ k < 8, (t.getV x).getLsbD k = bit k) := by
  refine ⟨_, h, ?frame, ?values⟩ <;> rw [State.logicReset_eq, State.setV_cfg]
  case frame =>
    split
    · exact (sameExcept_setV s b (by simp)).trans (sameExcept_setV _ _ (by simp))
    · exact sameExcept_setV s b (by simp)
  case values =>
    cases reset : s.cfg.qVfReset
    · simpa using bits
    · simp only [if_true, getV_setV_same, State.getV_setV, true_and, forall_const, reduceCtorEq, or_false]
      intro hx
      simpa [Ne.symm hx] using bits

/-- Settles O21: each is one write of V[x] and then the reset of VF. -/
theorem logicOperations : Obligations.LogicOperations := by
  intro x y s
  exact ⟨fun h => completes_of_exec_eq_logicReset (exec_orReg h) (fun k _ => BitVec.getLsbD_or),
    fun h => completes_of_exec_eq_logicReset (exec_andReg h) (fun k _ => BitVec.getLsbD_and),
    fun h => completes_of_exec_eq_logicReset (exec_xorReg h) (fun k _ => by simp)⟩

/-! ## Arithmetic with flags -/

theorem flagByte_carryFlag (a b : Byte) :
    flagByte (carryFlag a b) = if a.toNat + b.toNat > 255 then 0x01#8 else 0x00#8 := by
  simp [flagByte, carryFlag]

/-- The sum modulo 256 and its carry are the exact sum (42_register_alu.md R146). -/
theorem sum_and_carry (a b : Byte) :
    (BitVec.ofNat 8 (a.toNat + b.toNat)).toNat + 256 * (flagByte (carryFlag a b)).toNat = a.toNat + b.toNat := by
  have ha := a.isLt
  have hb := b.isLt
  rw [flagByte_carryFlag, BitVec.toNat_ofNat]
  split <;> simp <;> omega

/-- Settles O22: the sum modulo 256, and then its carry. -/
theorem addSetsCarry : Obligations.AddSetsCarry := by
  intro x y s h
  refine (completes_of_exec_eq_setFlag (exec_addReg h)).imp fun t ⟨flag, result⟩ => ⟨?_, fun hx => ?_⟩
  · rw [flag, flagByte_carryFlag]
  · rw [flag, result hx, sum_and_carry]

/-- The difference modulo 256 and the subtrahend give the minuend back (42_register_alu.md R147). -/
theorem difference_add_subtrahend (a b : Byte) :
    ((BitVec.ofNat 8 (a.toNat + 256 - b.toNat)).toNat + b.toNat) % 256 = a.toNat := by
  have ha := a.isLt
  have hb := b.isLt
  rw [BitVec.toNat_ofNat]
  omega

/-- SUB and SUBN from their equation. -/
theorem completes_of_exec_eq_setDifference {i : Instr} {x : Reg} {a b : Byte} {s : State}
    (h : exec i s = .next (s.setDifference x a b)) :
    Completes i s [x, 0xF#4] [] fun t =>
      (t.getV 0xF#4 = if a.toNat > b.toNat then 0x01#8 else 0x00#8) ∧
      (x ≠ 0xF#4 → ((t.getV x).toNat + b.toNat) % 256 = a.toNat) := by
  refine (completes_of_exec_eq_setFlag h).imp fun t ⟨flag, result⟩ => ⟨?_, fun hx => ?_⟩
  · simp [flag, flagByte, noBorrowFlag]
  · rw [result hx, difference_add_subtrahend]

/-- Settles O23: both are one difference with its flag, in either order of the operands. -/
theorem subtractSetsNoBorrow : Obligations.SubtractSetsNoBorrow := by
  intro x y s
  exact ⟨fun h => completes_of_exec_eq_setDifference (exec_subReg h),
    fun h => completes_of_exec_eq_setDifference (exec_subn h)⟩

/-! ## Shifts -/

/-- Settles O24: the bit shifted out is bit 0 or bit 7 of the source. -/
theorem shiftsMoveOneBit : Obligations.ShiftsMoveOneBit := by
  intro x y s
  constructor
  · intro h
    refine (completes_of_exec_eq_setFlag (exec_shr h)).imp fun t ⟨flag, result⟩ => ⟨?_, fun hx => ?_⟩
    · rw [flag, shrFlag_toNat]; rfl
    · rw [result hx, BitVec.toNat_ushiftRight, Nat.shiftRight_eq_div_pow]; rfl
  · intro h
    refine (completes_of_exec_eq_setFlag (exec_shl h)).imp fun t ⟨flag, result⟩ => ⟨?_, fun hx => ?_⟩
    · rw [flag, shlFlag_toNat]; rfl
    · rw [result hx, BitVec.toNat_shiftLeft, Nat.shiftLeft_eq, Nat.mul_comm]; rfl

end Sys2Proof.Machine
end

section
/-! PROOFS of the families 43_memory_index.md (I), 44_display_random.md (CLS, RND) and 45_timers_keys.md (the keys). -/
namespace Sys2Proof.Machine

/-- Settles O28: each writes I alone; 0x50 + 5 * V[x] is below 65536. -/
theorem indexArithmetic : Obligations.IndexArithmetic := by
  intro x s
  constructor
  · intro h
    refine ⟨_, exec_addIVx h, sameExcept_setI s _ (by simp), ?_⟩
    simp only [State.setI_i, BitVec.toNat_ofNat]
  · intro h
    exact ⟨_, exec_ldFVx h, sameExcept_setI s _ (by simp), glyphAddress_toNat _⟩

/-- Settles O35: the display is written alone. -/
theorem clearTurnsEveryCellOff : Obligations.ClearTurnsEveryCellOff :=
  fun s => ⟨_, rfl, sameExcept_setDisp s _ (by simp), clearedDisplay_cell⟩

/-- A byte masked by kk has no bit outside kk. -/
theorem masked_and_not (b kk : Byte) : b &&& kk &&& ~~~kk = 0x00#8 := by
  simp [BitVec.and_assoc]

/-- Settles O40: one register write and one count of the draws. -/
theorem randomByteIsMasked : Obligations.RandomByteIsMasked := by
  intro x kk s
  have value : (s.setRandom (Config.randomByte s.draws) x kk).countDraw.getV x = Config.randomByte s.draws &&& kk :=
    getV_setV_same ..
  exact ⟨_, rfl, (sameExcept_setV s _ (by simp)).trans (sameExcept_countDraw _ (by simp)), value,
    value ▸ masked_and_not .., rfl⟩

/-- Settles O42: with a key number SKP and SKNP are skips; without one they stop. -/
theorem keySkips : Obligations.KeySkips := by
  intro x s
  refine ⟨fun key => ⟨fun h => ?_, fun h => ?_⟩, fun above policy => ⟨fun h => ?_, fun h => ?_⟩⟩
  · exact completes_of_exec_eq_skipIf (by rw [exec_skp h, keyIndex_eq_ok key]; rfl) Iff.rfl
  · refine (completes_of_exec_eq_skipIf (P := ¬ s.pressed (BitVec.ofNat 4 (s.getV x).toNat) = true)
      (by rw [exec_sknp h, keyIndex_eq_ok key]; rfl) (by simp)).imp fun t ht => ?_
    rw [ht, ite_not]
  · rw [exec_skp h, keyIndex_eq_error above policy]; rfl
  · rw [exec_sknp h, keyIndex_eq_error above policy]; rfl

/-- Settles O43: Exec is written alone. -/
theorem keyWaitBegins : Obligations.KeyWaitBegins :=
  fun _ s => ⟨_, rfl, sameExcept_setExec s _ (by simp), rfl⟩

end Sys2Proof.Machine
end

section
/-! PROOFS: the invariant. Which instructions write a part of the state, what an instruction can do to the stack and to
PC, and what of the invariant each step and each call of the host keeps (10_state.md sections 2 to 8, 40_step_cycle.md,
60_exceptions.md R250). -/
namespace Sys2Proof.Machine

/-! ## Which instructions write a part -/

section
variable {cfg : Config} {i : Instr} {x : Reg} {p : Part}

theorem mem_partsWritten_ldMemVx :
    p ∈ partsWritten cfg (.ldMemVx x) ↔ p = .mem ∨ cfg.qIndexIncrement = true ∧ p = .i := by
  cases h : cfg.qIndexIncrement <;> simp [partsWritten, h]

theorem mem_partsWritten_ldVxMem :
    p ∈ partsWritten cfg (.ldVxMem x) ↔ cfg.qIndexIncrement = true ∧ p = .i := by
  cases h : cfg.qIndexIncrement <;> simp [partsWritten, h]

/-- `i` is one of the instructions the spec names as the writers of the part. -/
def WritesPart (cfg : Config) (i : Instr) : Part → Prop
  | .i => (∃ nnn, i = .ldI nnn) ∨ (∃ x, i = .addIVx x) ∨ (∃ x, i = .ldFVx x) ∨
      ((∃ x, i = .ldMemVx x) ∨ ∃ x, i = .ldVxMem x) ∧ cfg.qIndexIncrement = true
  | .pc => (i = .ret ∨ (∃ nnn, i = .jp nnn ∨ i = .call nnn ∨ i = .jpV0 nnn) ∨ ∃ x y n, i = .drw x y n) ∨
      (∃ x kk, i = .seImm x kk ∨ i = .sneImm x kk) ∨ (∃ x y, i = .seReg x y ∨ i = .sneReg x y) ∨
      ∃ x, i = .skp x ∨ i = .sknp x
  | .stack => i = .ret ∨ ∃ nnn, i = .call nnn
  | .dt => ∃ x, i = .ldDTVx x
  | .st => ∃ x, i = .ldSTVx x
  | .mem => (∃ x, i = .ldBVx x) ∨ ∃ x, i = .ldMemVx x
  | .disp => i = .cls ∨ ∃ x y n, i = .drw x y n
  | .execState => ∃ x, i = .ldVxK x
  | .redraw => ∃ x y n, i = .drw x y n
  | .draws => ∃ x kk, i = .rnd x kk

/-- A part in the frame of an instruction has that instruction among its writers. -/
theorem writesPart_of_mem (h : p ∈ partsWritten cfg i) : WritesPart cfg i p := by
  cases i with
  | ldMemVx x =>
    rcases mem_partsWritten_ldMemVx.1 h with rfl | ⟨increment, rfl⟩
    · exact .inr ⟨x, rfl⟩
    · exact .inr (.inr (.inr ⟨.inl ⟨x, rfl⟩, increment⟩))
  | ldVxMem x =>
    obtain ⟨increment, rfl⟩ := mem_partsWritten_ldVxMem.1 h
    exact .inr (.inr (.inr ⟨.inr ⟨x, rfl⟩, increment⟩))
  | _ => cases p <;> simp [partsWritten, WritesPart] at h ⊢

end

/-! ## What an answered instruction does to PC, the stack and Exec -/

section
variable {i : Instr} {x : Reg} {s t u : State}

theorem eq_of_exec_eq_next (h : exec i s = .next t) (answered : exec i s = .next u) : t = u := by
  rw [h] at answered
  exact Host.Outcome.next.inj answered

theorem exec_skp_next (h : exec (.skp x) s = .next t) : ∃ taken, t = s.skipIf taken := by
  rw [exec_skp (operandsReadable_of_next h)] at h
  cases key : keyIndex (s.getV x) s with
  | error f => rw [key] at h; cases h
  | ok k => rw [key] at h; cases h; exact ⟨_, rfl⟩

theorem exec_sknp_next (h : exec (.sknp x) s = .next t) : ∃ taken, t = s.skipIf taken := by
  rw [exec_sknp (operandsReadable_of_next h)] at h
  cases key : keyIndex (s.getV x) s with
  | error f => rw [key] at h; cases h
  | ok k => rw [key] at h; cases h; exact ⟨_, rfl⟩

theorem State.skipIf_pc (taken : Bool) (s : State) :
    (s.skipIf taken).pc = s.pc ∨ (s.skipIf taken).pc = s.pc + 2 := by
  cases taken
  · exact .inl rfl
  · exact .inr rfl

theorem addrOperand_le (nnn : Addr) : (addrOperand nnn).toNat ≤ 0x10FE := by
  rw [addrOperand_toNat]
  omega

theorem indexedTarget_le (nnn : Addr) (b : Byte) : (indexedTarget nnn b).toNat ≤ 0x10FE := by
  rw [indexedTarget_toNat]
  omega

/-- Everything an instruction can do to PC: keep it, skip, go back to a stalled draw, return, or jump to nnn or nnn + V0. -/
theorem exec_pc (h : exec i s = .next t) :
    (t.pc = s.pc ∨ t.pc = s.pc + 2) ∨ t.pc = s.pc - 2 ∨ t.pc ∈ s.stack ∨ t.pc.toNat ≤ 0x10FE := by
  have readable := operandsReadable_of_next h
  cases i with
  | ret =>
    obtain ⟨l, a, stack, rfl⟩ := execRet_next h
    exact .inr (.inr (.inl (by simp [stack])))
  | jp nnn =>
    cases h
    exact .inr (.inr (.inr (addrOperand_le nnn)))
  | call nnn =>
    obtain ⟨_, rfl⟩ := execCall_next h
    exact .inr (.inr (.inr (addrOperand_le nnn)))
  | jpV0 nnn =>
    rw [eq_of_exec_eq_next h (exec_jpV0 readable)]
    exact .inr (.inr (.inr (indexedTarget_le nnn _)))
  | drw x y n =>
    rcases execDrw_next h with ⟨_, rfl⟩ | ⟨_, rfl⟩
    · exact .inr (.inl rfl)
    · exact .inl (.inl rfl)
  | seImm x kk => rw [eq_of_exec_eq_next h (exec_seImm readable)]; exact .inl (State.skipIf_pc _ s)
  | sneImm x kk => rw [eq_of_exec_eq_next h (exec_sneImm readable)]; exact .inl (State.skipIf_pc _ s)
  | seReg x y => rw [eq_of_exec_eq_next h (exec_seReg readable)]; exact .inl (State.skipIf_pc _ s)
  | sneReg x y => rw [eq_of_exec_eq_next h (exec_sneReg readable)]; exact .inl (State.skipIf_pc _ s)
  | skp x => obtain ⟨taken, rfl⟩ := exec_skp_next h; exact .inl (State.skipIf_pc taken s)
  | sknp x => obtain ⟨taken, rfl⟩ := exec_sknp_next h; exact .inl (State.skipIf_pc taken s)
  | ldMemVx x => exact .inl (.inl ((exec_frame h).pc (by simp [mem_partsWritten_ldMemVx])))
  | ldVxMem x => exact .inl (.inl ((exec_frame h).pc (by simp [mem_partsWritten_ldVxMem])))
  | _ => exact .inl (.inl ((exec_frame h).pc (by simp [partsWritten])))

/-- Everything an instruction can do to the stack: keep it, pop, or push the advanced PC below the depth of 16. -/
theorem exec_stack (h : exec i s = .next t) :
    t.stack = s.stack ∨ (∃ a, s.stack = t.stack ++ [a]) ∨
      (s.stack.length < stackDepth ∧ t.stack = s.stack ++ [s.pc]) := by
  by_cases written : Part.stack ∈ partsWritten s.cfg i
  · rcases writesPart_of_mem written with rfl | ⟨nnn, rfl⟩
    · obtain ⟨l, a, stack, rfl⟩ := execRet_next h
      exact .inr (.inl ⟨a, stack⟩)
    · obtain ⟨notFull, rfl⟩ := execCall_next h
      exact .inr (.inr ⟨notFull, rfl⟩)
  · exact .inl ((exec_frame h).stack written)

/-- Exec is written by FX0A alone, which begins the wait for a press. -/
theorem exec_execState (h : exec i s = .next t) :
    t.execState = s.execState ∨ ∃ r, t.execState = .awaitingKey r .waitingForPress := by
  by_cases written : Part.execState ∈ partsWritten s.cfg i
  · obtain ⟨x, rfl⟩ := writesPart_of_mem written
    cases h
    exact .inr ⟨x, rfl⟩
  · exact .inl ((exec_frame h).execState written)

end

/-! ## The invariant through one instruction -/

section
variable {i : Instr} {s t : State}

theorem Inv.exec_pc_le (inv : Inv s) (low : 2 ≤ s.pc.toNat) (high : s.pc.toNat ≤ 0x1000)
    (h : exec i s = .next t) : t.pc.toNat ≤ 0x10FE := by
  rcases exec_pc h with (e | e) | e | e | e
  · rw [e]; omega
  · rw [e]; bv_omega
  · rw [e]; bv_omega
  · exact (inv.returns _ e).trans (by decide)
  · exact e

theorem Inv.exec_depth (inv : Inv s) (h : exec i s = .next t) : t.stack.length ≤ stackDepth := by
  have depth := inv.depth
  rcases exec_stack h with e | ⟨a, e⟩ | ⟨notFull, e⟩
  · rw [e]; exact depth
  · rw [e] at depth; simp at depth; omega
  · rw [e]; simp; omega

theorem Inv.exec_returns (inv : Inv s) (high : s.pc.toNat ≤ 0x1000) (h : exec i s = .next t) :
    ∀ a ∈ t.stack, a.toNat ≤ 0x1000 := by
  intro a ha
  rcases exec_stack h with e | ⟨b, e⟩ | ⟨_, e⟩
  · exact inv.returns a (e ▸ ha)
  · exact inv.returns a (e ▸ List.mem_append_left _ ha)
  · rw [e, List.mem_append, List.mem_singleton] at ha
    rcases ha with ha | rfl
    · exact inv.returns a ha
    · exact high

/-- An instruction of a running machine, at a PC the advance can reach, keeps the invariant. -/
theorem Inv.exec (inv : Inv s) (running : s.execState = .running) (low : 2 ≤ s.pc.toNat)
    (high : s.pc.toNat ≤ 0x1000) (h : exec i s = .next t) : Inv t where
  mem := exec_mem_wf h inv.mem
  disp := exec_disp_wf h inv.disp
  depth := inv.exec_depth h
  returns := inv.exec_returns high h
  pc := inv.exec_pc_le low high h
  waiting r k hx := by
    rcases exec_execState h with e | ⟨_, e⟩
    · rw [e, running] at hx; cases hx
    · rw [e] at hx; cases hx

/-! ## The invariant through one step -/

/-- The invariant speaks of these fields alone. -/
theorem Inv.congr (inv : Inv s) (mem : t.mem = s.mem) (disp : t.disp = s.disp) (stack : t.stack = s.stack)
    (pc : t.pc = s.pc) (execState : t.execState = s.execState) (v : ∀ r, t.getV r = s.getV r) : Inv t where
  mem := mem ▸ inv.mem
  disp := disp ▸ inv.disp
  depth := stack ▸ inv.depth
  returns := stack ▸ inv.returns
  pc := pc ▸ inv.pc
  waiting r k hx := (v r).trans (inv.waiting r k (execState ▸ hx))

/-- The advance from an address an opcode can be fetched at. -/
theorem Inv.advance (inv : Inv s) (fetched : s.pc.toNat + 1 < memSize) :
    Inv s.advance ∧ 2 ≤ s.advance.pc.toNat ∧ s.advance.pc.toNat ≤ 0x1000 := by
  have below : s.pc.toNat + 1 < 4096 := fetched
  have next : s.advance.pc.toNat = s.pc.toNat + 2 := by
    rw [State.advance_pc]
    bv_omega
  refine ⟨⟨inv.mem, inv.disp, inv.depth, inv.returns, ?_, inv.waiting⟩, ?_, ?_⟩ <;> omega

/-- The wait check keeps the invariant: at a press edge it writes the key's number to the target (40_step_cycle.md R105). -/
theorem Inv.waitCheck (inv : Inv s) (r : Reg) (p : WaitPhase) : Inv (waitCheck r p s) := by
  rcases waitCheck_cases r p s with ⟨_, k, _, e⟩ | ⟨_, _, e⟩ | ⟨_, _, _, e⟩ | ⟨_, _, _, e⟩ <;> rw [e]
  · refine ⟨inv.mem, inv.disp, inv.depth, inv.returns, inv.pc, fun r' k' hx => ?_⟩
    cases hx
    exact getV_setV_same ..
  · exact inv
  · exact ⟨inv.mem, inv.disp, inv.depth, inv.returns, inv.pc, fun r' k' hx => by cases hx⟩
  · exact inv

theorem Inv.step (inv : Inv s) (h : step s = .next t) : Inv t := by
  obtain ⟨_, ⟨r, p, _, rfl⟩ | ⟨running, fetched, i, _, answered⟩⟩ := step_eq_next h
  · exact inv.waitCheck r p
  · obtain ⟨advanced, low, high⟩ := inv.advance fetched
    exact advanced.exec running low high answered

end

/-- Settles O52: a step is a wait check, or the advance from below 0xFFF and one instruction. -/
theorem stepKeepsTheInvariant : Obligations.StepKeepsTheInvariant := fun _ _ inv h => inv.step h

/-! ## The invariant through a schedule of the host -/

theorem waitCheck_frame (r : Reg) (p : WaitPhase) (s : State) :
    SameExcept [r] [.execState] s (waitCheck r p s) := by
  rcases waitCheck_cases r p s with ⟨_, k, _, e⟩ | ⟨_, _, e⟩ | ⟨_, _, _, e⟩ | ⟨_, _, _, e⟩ <;> rw [e]
  · exact (sameExcept_setV s _ (by simp)).trans (sameExcept_setExec _ _ (by simp))
  · exact SameExcept.refl _ _ s
  · exact sameExcept_setExec s _ (by simp)
  · exact SameExcept.refl _ _ s

theorem step_cfg_halt {s t : State} (h : step s = .next t) : t.cfg = s.cfg ∧ t.halt = s.halt := by
  obtain ⟨_, ⟨r, p, _, rfl⟩ | ⟨_, _, i, _, answered⟩⟩ := step_eq_next h
  · exact ⟨(waitCheck_frame r p s).cfg, (waitCheck_frame r p s).halt⟩
  · exact ⟨(exec_frame answered).cfg, (exec_frame answered).halt⟩

theorem Inv.timerTick {s : State} (inv : Inv s) : Inv s.timerTick := by
  rcases s.timerTick_cases with e | e | e | e <;> rw [e]
  · exact inv
  all_goals exact inv.congr rfl rfl rfl rfl rfl fun _ => rfl

theorem timerTick_cfg_halt (s : State) : s.timerTick.cfg = s.cfg ∧ s.timerTick.halt = s.halt := by
  rcases s.timerTick_cases with e | e | e | e <;> rw [e] <;> exact ⟨rfl, rfl⟩

/-- Every call of the host keeps the invariant, the configuration and Halt. -/
theorem Inv.move {m : Move} {s t : State} (inv : Inv s) (h : s.move m = .next t) :
    Inv t ∧ t.cfg = s.cfg ∧ t.halt = s.halt := by
  cases m with
  | step => exact ⟨inv.step h, step_cfg_halt h⟩
  | timerTick => cases h; exact ⟨inv.timerTick, timerTick_cfg_halt s⟩
  | setKeys snapshot => cases h; exact ⟨inv.congr rfl rfl rfl rfl rfl fun _ => rfl, rfl, rfl⟩
  | frameBoundary => cases h; exact ⟨inv.congr rfl rfl rfl rfl rfl fun _ => rfl, rfl, rfl⟩

/-- Settles O53: each call keeps the three, so every schedule does. -/
theorem everyScheduleKeepsTheInvariant : Obligations.EveryScheduleKeepsTheInvariant := by
  intro moves s t inv h
  refine runMoves_keeps (P := fun u => Inv u ∧ u.cfg = s.cfg ∧ u.halt = s.halt) ?_ ⟨inv, rfl, rfl⟩ h
  intro m u w ⟨invU, cfgU, haltU⟩ moved
  obtain ⟨invW, cfgW, haltW⟩ := invU.move moved
  exact ⟨invW, cfgW.trans cfgU, haltW.trans haltU⟩

/-! ## The invariant at reset -/

theorem construct_inv (cfg : Config) : Inv (State.construct cfg) where
  mem := Memory.wf_empty
  disp := clearedDisplay_wf
  depth := Nat.zero_le _
  returns := fun _ h => by cases h
  pc := show (0x0200#16).toNat ≤ 0x10FE by decide
  waiting := fun _ _ h => by cases h

/-- Settles O51: memory is empty, the display cleared, the stack empty, PC 0x200 and the machine running. -/
theorem resetMeetsTheInvariant : Obligations.ResetMeetsTheInvariant :=
  ⟨construct_inv Config.normative, construct_inv⟩

end Sys2Proof.Machine
end

section
/-! PROOFS: the frames of the instructions as the families 10_state.md, 20_memory.md and 40_step_cycle.md state them. -/
namespace Sys2Proof.Machine

/-! ## The obligations on frames -/

/-- Settles O25: the frame of the registers, which names the destinations and the flag. -/
theorem registersChangeOnlyAsNamed : Obligations.RegistersChangeOnlyAsNamed := by
  intro i s t r h notDestination notFlag
  refine (exec_frame h).v r fun written => ?_
  unfold regsWritten at written
  split at written
  · next flag =>
    rcases List.mem_cons.1 written with rfl | destination
    · rw [notFlag rfl] at flag; cases flag
    · exact notDestination destination
  · exact notDestination written

/-- Settles O48: memory is among the parts written by the two stores alone. -/
theorem onlyStoresChangeMemory : Obligations.OnlyStoresChangeMemory := by
  intro i s t h notFX33 notFX55
  refine (exec_frame h).mem fun written => ?_
  rcases writesPart_of_mem written with ⟨x, rfl⟩ | ⟨x, rfl⟩
  · exact notFX33 x rfl
  · exact notFX55 x rfl

/-- Settles O49: a part that changed is among those the instruction may write. -/
theorem stateChangesOnlyAsNamed : Obligations.StateChangesOnlyAsNamed := by
  intro i s t h
  have frame := exec_frame h
  refine ⟨frame.keyCur, frame.keyPrev, frame.halt, frame.cfg, fun changed => ?_, fun changed => ?_, fun changed => ?_,
    fun changed => ?_, fun changed => ?_, fun changed => ?_, fun changed => ?_, fun changed => ?_⟩
  · exact writesPart_of_mem (not_imp_comm.1 frame.stack changed)
  · exact writesPart_of_mem (not_imp_comm.1 frame.disp changed)
  · exact writesPart_of_mem (not_imp_comm.1 frame.redraw changed)
  · exact writesPart_of_mem (not_imp_comm.1 (fun hn => (frame.dt hn).1) changed)
  · exact writesPart_of_mem (not_imp_comm.1 (fun hn => (frame.st hn).1) changed)
  · exact writesPart_of_mem (not_imp_comm.1 frame.execState changed)
  · exact writesPart_of_mem (not_imp_comm.1 frame.draws changed)
  · exact writesPart_of_mem (not_imp_comm.1 (fun hn => (frame.i hn).1) changed)

/-- Settles O59: a wait check writes V[r] and Exec alone; in the other case the step is one instruction. -/
theorem stepsChangeTimersAndRedrawAsNamed : Obligations.StepsChangeTimersAndRedrawAsNamed := by
  intro s t h runs
  obtain ⟨_, ⟨r, p, _, rfl⟩ | ⟨running, fetched, i, decoded, answered⟩⟩ := step_eq_next h
  · have frame := waitCheck_frame r p s
    exact ⟨frame.keyCur, frame.keyPrev, fun changed => absurd (frame.redraw (by simp)) changed,
      fun changed => absurd (frame.dt (by simp)).1 changed, fun changed => absurd (frame.st (by simp)).1 changed⟩
  · have frame := exec_frame answered
    have ran : runs i := ⟨running, _, memReadWord_eq_ok fetched, decoded⟩
    refine ⟨frame.keyCur, frame.keyPrev, fun changed => ?_, fun changed => ?_, fun changed => ?_⟩
    · obtain ⟨x, y, n, rfl⟩ := writesPart_of_mem (not_imp_comm.1 frame.redraw changed)
      exact ⟨x, y, n, ran⟩
    · obtain ⟨x, rfl⟩ := writesPart_of_mem (not_imp_comm.1 (fun hn => (frame.dt hn).1) changed)
      exact ⟨x, ran⟩
    · obtain ⟨x, rfl⟩ := writesPart_of_mem (not_imp_comm.1 (fun hn => (frame.st hn).1) changed)
      exact ⟨x, ran⟩

/-! ## The values of the flag -/

theorem flagByte_zero_or_one (f : Bool) : flagByte f = 0x00#8 ∨ flagByte f = 0x01#8 := by
  cases f
  · exact .inl rfl
  · exact .inr rfl

theorem getV_setFlag_zero_or_one (f : Bool) (s : State) :
    (s.setFlag f).getV 0xF#4 = 0x00#8 ∨ (s.setFlag f).getV 0xF#4 = 0x01#8 :=
  getV_setV_same 0xF#4 (flagByte f) s ▸ flagByte_zero_or_one f

theorem getV_logicReset_of_reset {s : State} (h : s.cfg.qVfReset = true) : s.logicReset.getV 0xF#4 = 0x00#8 := by
  rw [State.logicReset_eq, if_pos h, getV_setV_same]

/-- Settles O26: each flag writer ends with `setFlag`, or with the reset of VF. -/
theorem flagsAreZeroOrOne : Obligations.FlagsAreZeroOrOne := by
  intro i s t h flag running
  have readable := operandsReadable_of_next h
  cases i with
  | orReg x y => rw [eq_of_exec_eq_next h (exec_orReg readable)]; exact .inl (getV_logicReset_of_reset flag)
  | andReg x y => rw [eq_of_exec_eq_next h (exec_andReg readable)]; exact .inl (getV_logicReset_of_reset flag)
  | xorReg x y => rw [eq_of_exec_eq_next h (exec_xorReg readable)]; exact .inl (getV_logicReset_of_reset flag)
  | addReg x y => rw [eq_of_exec_eq_next h (exec_addReg readable)]; exact getV_setFlag_zero_or_one _ _
  | subReg x y => rw [eq_of_exec_eq_next h (exec_subReg readable)]; exact getV_setFlag_zero_or_one _ _
  | subn x y => rw [eq_of_exec_eq_next h (exec_subn readable)]; exact getV_setFlag_zero_or_one _ _
  | shr x y => rw [eq_of_exec_eq_next h (exec_shr readable)]; exact getV_setFlag_zero_or_one _ _
  | shl x y => rw [eq_of_exec_eq_next h (exec_shl readable)]; exact getV_setFlag_zero_or_one _ _
  | drw x y n =>
    rw [eq_of_exec_eq_next h (exec_drw readable (running x y n rfl)), State.getV_setRedraw]
    exact getV_setFlag_zero_or_one _ _
  | _ => cases flag

end Sys2Proof.Machine
end

section
/-! PROOFS of the family 10_state.md: which written bits an operation sets (R39; log 2). -/
namespace Sys2Proof.Machine

/-- From `s` to `t` exactly the bits of these items were set. -/
def MarksExactly (items : List Item) (s t : State) : Prop :=
  ∀ item, t.written.has item = true ↔ item ∈ items ∨ s.written.has item = true

section
variable {items items' : List Item} {s t u : State}

theorem marksExactly_mark {item : Item} (h : t.written = s.written.mark item) : MarksExactly [item] s t := by
  intro other
  rw [h, Written.has_mark_iff, List.mem_singleton]

theorem marksExactly_nil (h : ∀ item, t.written.has item = s.written.has item) : MarksExactly [] s t := by
  intro item
  rw [h item]
  simp

theorem MarksExactly.trans (h : MarksExactly items s t) (h' : MarksExactly items' t u) :
    MarksExactly (items ++ items') s u := by
  intro item
  rw [h' item, h item, List.mem_append]
  tauto

/-- A frame without registers, I and timers leaves every bit as it was. -/
theorem marksExactly_nil_of_frame {parts : List Part} (frame : SameExcept [] parts s t) (hi : Part.i ∉ parts)
    (hdt : Part.dt ∉ parts) (hst : Part.st ∉ parts) : MarksExactly [] s t := by
  refine marksExactly_nil fun item => ?_
  cases item with
  | v x => exact frame.writtenV x List.not_mem_nil
  | i => exact (frame.i hi).2
  | dt => exact (frame.dt hdt).2
  | st => exact (frame.st hst).2

/-! ## The shared operations -/

theorem marksExactly_setV (x : Reg) (b : Byte) (s : State) : MarksExactly [.v x] s (s.setV x b) :=
  marksExactly_mark rfl

theorem marksExactly_setFlag (x : Reg) (b : Byte) (f : Bool) (s : State) :
    MarksExactly [.v x, .v 0xF#4] s ((s.setV x b).setFlag f) :=
  (marksExactly_setV x b s).trans (marksExactly_setV 0xF#4 (flagByte f) _)

theorem marksExactly_logicReset (x : Reg) (b : Byte) (s : State) :
    MarksExactly (if s.cfg.qVfReset then [.v x, .v 0xF#4] else [.v x]) s (s.setV x b).logicReset := by
  rw [State.logicReset_eq, State.setV_cfg]
  split
  · exact (marksExactly_setV x b s).trans (marksExactly_setV 0xF#4 _ _)
  · exact marksExactly_setV x b s

theorem marksExactly_advanceIndex (x : Reg) (s : State) :
    MarksExactly (if s.cfg.qIndexIncrement then [.i] else []) s (s.advanceIndex x) := by
  rcases State.advanceIndex_cases x s with ⟨increment, e⟩ | ⟨keep, e⟩ <;> rw [e]
  · rw [if_pos increment]; exact marksExactly_mark rfl
  · rw [keep]; exact marksExactly_nil fun _ => rfl

theorem marksExactly_loadRegs {x : Reg} {i : Word} (h : loadRegs i (x.toNat + 1) 0 s = .ok t) :
    MarksExactly ((destinations (.ldVxMem x)).map .v) s t := by
  have hx : x.toNat < 16 := x.isLt
  obtain ⟨v, w, rfl, _, registers, ⟨hi, hdt, hst⟩, _⟩ := loadRegs_eq_ok (by omega) h
  intro item
  cases item with
  | v r =>
    have loaded : r ∈ destinations (.ldVxMem x) ↔ 0 ≤ r.toNat ∧ r.toNat < 0 + (x.toNat + 1) := by
      rw [mem_destinations_ldVxMem]
      omega
    simp only [List.mem_map, Item.v.injEq, exists_eq_right, loaded, registers]
    split <;> simp_all
  | i => simp [hi]
  | dt => simp [hdt]
  | st => simp [hst]

end

/-! ## Every instruction -/

/-- Which bits an answered instruction sets. -/
theorem exec_marksExactly {i : Instr} {s t : State} (h : exec i s = .next t) :
    MarksExactly (itemsWritten s i) s t := by
  have readable := operandsReadable_of_next h
  cases i with
  | ldImm x kk => cases h; exact marksExactly_setV x kk s
  | addImm x kk => rw [eq_of_exec_eq_next h (exec_addImm readable)]; exact marksExactly_setV x _ s
  | ldReg x y => rw [eq_of_exec_eq_next h (exec_ldReg readable)]; exact marksExactly_setV x _ s
  | orReg x y => rw [eq_of_exec_eq_next h (exec_orReg readable)]; exact marksExactly_logicReset x _ s
  | andReg x y => rw [eq_of_exec_eq_next h (exec_andReg readable)]; exact marksExactly_logicReset x _ s
  | xorReg x y => rw [eq_of_exec_eq_next h (exec_xorReg readable)]; exact marksExactly_logicReset x _ s
  | addReg x y => rw [eq_of_exec_eq_next h (exec_addReg readable)]; exact marksExactly_setFlag x _ _ s
  | subReg x y => rw [eq_of_exec_eq_next h (exec_subReg readable)]; exact marksExactly_setFlag x _ _ s
  | subn x y => rw [eq_of_exec_eq_next h (exec_subn readable)]; exact marksExactly_setFlag x _ _ s
  | shr x y => rw [eq_of_exec_eq_next h (exec_shr readable)]; exact marksExactly_setFlag x _ _ s
  | shl x y => rw [eq_of_exec_eq_next h (exec_shl readable)]; exact marksExactly_setFlag x _ _ s
  | rnd x kk => cases h; exact marksExactly_mark rfl
  | ldI nnn => cases h; exact marksExactly_mark rfl
  | addIVx x => rw [eq_of_exec_eq_next h (exec_addIVx readable)]; exact marksExactly_mark rfl
  | ldFVx x => rw [eq_of_exec_eq_next h (exec_ldFVx readable)]; exact marksExactly_mark rfl
  | ldVxDT x => rw [eq_of_exec_eq_next h (exec_ldVxDT readable)]; exact marksExactly_setV x _ s
  | ldDTVx x => rw [eq_of_exec_eq_next h (exec_ldDTVx readable)]; exact marksExactly_mark rfl
  | ldSTVx x => rw [eq_of_exec_eq_next h (exec_ldSTVx readable)]; exact marksExactly_mark rfl
  | drw x y n =>
    rcases execDrw_next h with ⟨stalled, rfl⟩ | ⟨running, rfl⟩ <;> simp only [itemsWritten]
    · rw [if_pos stalled]; exact marksExactly_nil fun _ => rfl
    · rw [running]; exact marksExactly_mark rfl
  | ldMemVx x =>
    obtain ⟨u, stored, rfl⟩ := execLdMemVx_next h
    obtain ⟨m, rfl, _⟩ := storeRegs_eq_ok stored
    exact marksExactly_advanceIndex x (s.setMem m)
  | ldVxMem x =>
    obtain ⟨u, loaded, rfl⟩ := execLdVxMem_next h
    have hx : x.toNat < 16 := x.isLt
    obtain ⟨v, w, rfl, _⟩ := loadRegs_eq_ok (by omega) loaded
    exact (marksExactly_loadRegs loaded).trans (marksExactly_advanceIndex x _)
  | _ =>
    exact marksExactly_nil_of_frame (exec_frame h) (by simp [partsWritten]) (by simp [partsWritten])
      (by simp [partsWritten])

/-! ## The wait check and the tick -/

theorem pressEdge_eq_true_iff {s : State} {k : Key} :
    s.pressEdge k = true ↔ s.wasPressed k = false ∧ s.pressed k = true := by
  simp [State.pressEdge]

/-- The wait check writes V[r] at a press edge and no item otherwise. -/
theorem waitCheck_marks (r : Reg) (p : WaitPhase) (s : State) (item : Item) :
    (waitCheck r p s).written.has item = true ↔
      (p = .waitingForPress ∧ (∃ k : Key, s.wasPressed k = false ∧ s.pressed k = true) ∧ item = .v r) ∨
        s.written.has item = true := by
  simp only [← pressEdge_eq_true_iff]
  rcases waitCheck_cases r p s with ⟨rfl, k, found, e⟩ | ⟨rfl, none, e⟩ | ⟨k, rfl, _, e⟩ | ⟨k, rfl, _, e⟩ <;>
    rw [e]
  · have edge : ∃ k, s.pressEdge k = true := ⟨k, (firstPressEdge_eq_some found).1⟩
    simp only [State.setExec_written, State.setV_written, Written.has_mark_iff, edge, true_and]
  · simp [firstPressEdge_eq_none.1 none]
  · simp
  · simp

theorem toNat_pos_iff {b : Byte} : b.toNat > 0 ↔ b ≠ 0x00#8 := by
  rw [gt_iff_lt, Nat.pos_iff_ne_zero, ne_eq, ne_eq, BitVec.toNat_eq]
  rfl

/-- A tick writes each timer that is not 0. -/
theorem timerTick_marks (s : State) (item : Item) :
    s.timerTick.written.has item = true ↔
      (item = .dt ∧ s.dt ≠ 0x00#8) ∨ (item = .st ∧ s.st ≠ 0x00#8) ∨ s.written.has item = true := by
  rw [← toNat_pos_iff, ← toNat_pos_iff]
  unfold State.timerTick
  by_cases hdt : s.dt.toNat > 0 <;> by_cases hst : s.st.toNat > 0
  · simp only [if_pos hdt, State.setDT_st, if_pos hst, State.setST_written, State.setDT_written,
      Written.has_mark_iff]
    tauto
  · simp only [if_pos hdt, State.setDT_st, if_neg hst, State.setDT_written, Written.has_mark_iff]
    tauto
  · simp only [if_neg hdt, if_pos hst, State.setST_written, Written.has_mark_iff]
    tauto
  · simp only [if_neg hdt, if_neg hst]
    tauto

/-- Settles O58: the marks of the instructions, of the wait check and of the tick. -/
theorem writesMarkTheirItems : Obligations.WritesMarkTheirItems := by
  refine ⟨fun i s t h => exec_marksExactly h, fun r p s t hh hx h => ?_, timerTick_marks⟩
  rw [step_awaiting hh hx] at h
  cases h
  exact waitCheck_marks r p s

end Sys2Proof.Machine
end

section
/-! PROOFS of the families 10_state.md: no instruction reads ST or KeyPrev (R29, R31, R38). Both are fields that every
meaning but FX18's passes by, so the meanings commute with a change of them. -/
namespace Sys2Proof.Machine

/-- The same state with another ST and another KeyPrev. -/
def State.withUnread (b : Byte) (p : Keys) (s : State) : State := { s with st := b, keyPrev := p }

/-- The same answer, its next state changed. -/
def mapNext (g : State → State) : Result → Result
  | .next t => .next (g t)
  | .fault f => .fault f
  | .refused r => .refused r

section
variable {b : Byte} {p : Keys} {s : State}

/-- What is read of an item is the same with another ST and KeyPrev, so only the rest of the meaning is compared. -/
theorem finish_bind_mapNext {α : Type} {r : Except Fault α} {f g : α → Except Fault State} {k : State → State}
    (h : ∀ a, finish (g a) = mapNext k (finish (f a))) : finish (r >>= g) = mapNext k (finish (r >>= f)) := by
  cases r with
  | error e => rfl
  | ok a => exact h a

theorem skipIf_withUnread (taken : Bool) : (s.withUnread b p).skipIf taken = (s.skipIf taken).withUnread b p := by
  cases taken <;> rfl

theorem logicReset_withUnread : (s.withUnread b p).logicReset = s.logicReset.withUnread b p := by
  have sameQuirk : (s.withUnread b p).cfg.qVfReset = s.cfg.qVfReset := rfl
  rw [State.logicReset_eq, State.logicReset_eq, sameQuirk]
  split <;> rfl

theorem advanceIndex_withUnread (x : Reg) :
    (s.withUnread b p).advanceIndex x = (s.advanceIndex x).withUnread b p := by
  have sameQuirk : (s.withUnread b p).cfg.qIndexIncrement = s.cfg.qIndexIncrement := rfl
  rw [State.advanceIndex, State.advanceIndex, sameQuirk]
  split <;> rfl

theorem finish_skipIf_withUnread (taken : Bool) :
    finish (.ok ((s.withUnread b p).skipIf taken)) =
      mapNext (State.withUnread b p) (finish (.ok (s.skipIf taken))) := by
  rw [skipIf_withUnread]; rfl

theorem memWrite_withUnread (a : Nat) (v : Byte) :
    memWrite a v (s.withUnread b p) = (memWrite a v s).map (State.withUnread b p) := by
  rcases memWrite_cases a v s with ⟨h, e⟩ | ⟨h, e⟩ <;> rw [e]
  · rw [memWrite_eq_ok h]; rfl
  · rw [memWrite_eq_error h]; rfl

theorem finish_memWrite_bind_withUnread {a : Nat} {v : Byte} {f : State → Except Fault State}
    (h : ∀ t : State, finish (f (t.withUnread b p)) = mapNext (State.withUnread b p) (finish (f t))) :
    finish (memWrite a v (s.withUnread b p) >>= f) =
      mapNext (State.withUnread b p) (finish (memWrite a v s >>= f)) := by
  rw [memWrite_withUnread]
  cases memWrite a v s with
  | error e => rfl
  | ok t => exact h t

theorem storeRegs_withUnread (i : Word) (count k : Nat) :
    storeRegs i count k (s.withUnread b p) = (storeRegs i count k s).map (State.withUnread b p) := by
  induction count generalizing k s with
  | zero => rfl
  | succ n ih =>
    have sameRead : readV (BitVec.ofNat 4 k) (s.withUnread b p) = readV (BitVec.ofNat 4 k) s := rfl
    simp only [storeRegs, sameRead, memWrite_withUnread]
    cases readV (BitVec.ofNat 4 k) s with
    | error e => rfl
    | ok v =>
      simp only [except_ok_bind]
      cases memWrite (dataAddress i k) v s with
      | error e => rfl
      | ok t => exact ih (k + 1)

theorem loadRegs_withUnread (i : Word) (count k : Nat) :
    loadRegs i count k (s.withUnread b p) = (loadRegs i count k s).map (State.withUnread b p) := by
  induction count generalizing k s with
  | zero => rfl
  | succ n ih =>
    have sameRead : memRead (dataAddress i k) (s.withUnread b p) = memRead (dataAddress i k) s := rfl
    simp only [loadRegs, sameRead]
    cases memRead (dataAddress i k) s with
    | error e => rfl
    | ok v => exact ih (s := s.setV (BitVec.ofNat 4 k) v) (k + 1)

/-- The shape of FX55 and FX65: a transfer, then the advance of I. -/
theorem finish_transfer_withUnread {x : Reg} {r r' : Except Fault State}
    (h : r' = r.map (State.withUnread b p)) :
    finish (r' >>= fun t => pure (t.advanceIndex x)) =
      mapNext (State.withUnread b p) (finish (r >>= fun t => pure (t.advanceIndex x))) := by
  subst h
  cases r with
  | error e => rfl
  | ok t => exact congrArg Host.Outcome.next (advanceIndex_withUnread x)

theorem logicOp_withUnread (f : Byte → Byte → Byte) (x y : Reg) :
    finish (logicOp f x y (s.withUnread b p)) = mapNext (State.withUnread b p) (finish (logicOp f x y s)) :=
  finish_bind_mapNext fun _ => finish_bind_mapNext fun _ =>
    congrArg Host.Outcome.next (logicReset_withUnread (s := s.setV x _))

theorem execDrw_withUnread (x y : Reg) (n : Nibble) :
    execDrw x y n (s.withUnread b p) = mapNext (State.withUnread b p) (execDrw x y n s) := by
  have sameStall : (s.withUnread b p).drawStalls = s.drawStalls := rfl
  rw [execDrw, execDrw, sameStall]
  split
  · rfl
  · exact finish_bind_mapNext fun _ => finish_bind_mapNext fun _ => finish_bind_mapNext fun _ => rfl

theorem execSys_withUnread (nnn : Addr) :
    execSys nnn (s.withUnread b p) = mapNext (State.withUnread b p) (execSys nnn s) := by
  have samePolicy : (s.withUnread b p).cfg.sysPolicy = s.cfg.sysPolicy := rfl
  rw [execSys, execSys, samePolicy]
  cases s.cfg.sysPolicy <;> rfl

theorem execRet_withUnread : execRet (s.withUnread b p) = mapNext (State.withUnread b p) (execRet s) := by
  rcases List.eq_nil_or_concat s.stack with h | ⟨l, a, h⟩
  · have h' : (s.withUnread b p).stack = [] := h
    have stopped := exec_ret_of_stack_eq_nil h
    have stopped' := exec_ret_of_stack_eq_nil h'
    exact stopped'.trans (congrArg (mapNext (State.withUnread b p)) stopped.symm)
  · rw [List.concat_eq_append] at h
    have h' : (s.withUnread b p).stack = l ++ [a] := h
    have answered := exec_ret_of_stack_eq_append h
    have answered' := exec_ret_of_stack_eq_append h'
    exact answered'.trans (congrArg (mapNext (State.withUnread b p)) answered.symm)

theorem execCall_withUnread (nnn : Addr) :
    execCall nnn (s.withUnread b p) = mapNext (State.withUnread b p) (execCall nnn s) := by
  rcases Nat.lt_or_ge s.stack.length stackDepth with h | h
  · have h' : (s.withUnread b p).stack.length < stackDepth := h
    exact (exec_call_of_lt h').trans (congrArg (mapNext (State.withUnread b p)) (exec_call_of_lt h).symm)
  · have h' : stackDepth ≤ (s.withUnread b p).stack.length := h
    exact (exec_call_of_full h').trans (congrArg (mapNext (State.withUnread b p)) (exec_call_of_full h).symm)

/-- Every instruction but FX18 commutes with a change of ST and KeyPrev. -/
theorem exec_withUnread {i : Instr} (hi : ∀ x, i ≠ .ldSTVx x) :
    exec i (s.withUnread b p) = mapNext (State.withUnread b p) (exec i s) := by
  cases i with
  | ldSTVx x => exact absurd rfl (hi x)
  | sys nnn => exact execSys_withUnread nnn
  | ret => exact execRet_withUnread
  | call nnn => exact execCall_withUnread nnn
  | drw x y n => exact execDrw_withUnread x y n
  | orReg x y => exact logicOp_withUnread _ x y
  | andReg x y => exact logicOp_withUnread _ x y
  | xorReg x y => exact logicOp_withUnread _ x y
  | seImm x kk => exact finish_bind_mapNext fun _ => finish_skipIf_withUnread _
  | sneImm x kk => exact finish_bind_mapNext fun _ => finish_skipIf_withUnread _
  | seReg x y => exact finish_bind_mapNext fun _ => finish_bind_mapNext fun _ => finish_skipIf_withUnread _
  | sneReg x y => exact finish_bind_mapNext fun _ => finish_bind_mapNext fun _ => finish_skipIf_withUnread _
  | skp x => exact finish_bind_mapNext fun _ => finish_bind_mapNext fun _ => finish_skipIf_withUnread _
  | sknp x => exact finish_bind_mapNext fun _ => finish_bind_mapNext fun _ => finish_skipIf_withUnread _
  | jpV0 nnn => exact finish_bind_mapNext fun _ => rfl
  | addImm x kk => exact finish_bind_mapNext fun _ => rfl
  | ldReg x y => exact finish_bind_mapNext fun _ => rfl
  | addReg x y => exact finish_bind_mapNext fun _ => finish_bind_mapNext fun _ => rfl
  | subReg x y => exact finish_bind_mapNext fun _ => finish_bind_mapNext fun _ => rfl
  | subn x y => exact finish_bind_mapNext fun _ => finish_bind_mapNext fun _ => rfl
  | shr x y => exact finish_bind_mapNext fun _ => rfl
  | shl x y => exact finish_bind_mapNext fun _ => rfl
  | addIVx x => exact finish_bind_mapNext fun _ => finish_bind_mapNext fun _ => rfl
  | ldFVx x => exact finish_bind_mapNext fun _ => rfl
  | ldBVx x =>
    refine finish_bind_mapNext fun _ => finish_bind_mapNext fun _ => ?_
    refine finish_memWrite_bind_withUnread fun t => finish_memWrite_bind_withUnread fun u => ?_
    rw [memWrite_withUnread]
    cases memWrite _ _ u <;> rfl
  | ldMemVx x => exact finish_bind_mapNext fun _ => finish_transfer_withUnread (storeRegs_withUnread _ _ _)
  | ldVxMem x => exact finish_bind_mapNext fun _ => finish_transfer_withUnread (loadRegs_withUnread _ _ _)
  | ldVxDT x => exact finish_bind_mapNext fun _ => rfl
  | ldDTVx x => exact finish_bind_mapNext fun _ => rfl
  | _ => rfl

/-- FX18 writes ST whatever it held, and keeps KeyPrev. -/
theorem exec_ldSTVx_withUnread (x : Reg) :
    exec (.ldSTVx x) (s.withUnread b p) = mapNext (fun t => { t with keyPrev := p }) (exec (.ldSTVx x) s) :=
  finish_bind_mapNext fun _ => rfl

/-- Two states that differ in ST and KeyPrev alone run every instruction alike. -/
theorem exec_of_unread_changed {i : Instr} :
    (∀ t, exec i s = .next t → ∃ b', exec i (s.withUnread b p) = .next (t.withUnread b' p) ∧
      (b = s.st → b' = t.st)) ∧
    ∀ f, exec i s = .fault f → exec i (s.withUnread b p) = .fault f := by
  by_cases hi : ∃ x, i = .ldSTVx x
  · obtain ⟨x, rfl⟩ := hi
    rw [exec_ldSTVx_withUnread]
    refine ⟨fun t h => ⟨t.st, ?_, fun _ => rfl⟩, fun f h => ?_⟩ <;> rw [h] <;> rfl
  · have others := not_exists.1 hi
    rw [exec_withUnread others]
    refine ⟨fun t h => ⟨b, by rw [h]; rfl, ?_⟩, fun f h => by rw [h]; rfl⟩
    rintro rfl
    exact ((exec_frame h).st fun written => hi (writesPart_of_mem written)).1.symm

end

/-- Settles O46: ST is one of the two fields, KeyPrev kept as it is. -/
theorem soundTimerIsNeverRead : Obligations.SoundTimerIsNeverRead := by
  intro i s b
  obtain ⟨answers, faults⟩ := exec_of_unread_changed (b := b) (p := s.keyPrev) (s := s) (i := i)
  refine ⟨fun t h => ?_, faults⟩
  obtain ⟨b', answered, _⟩ := answers t h
  have keptKeys : t.withUnread b' s.keyPrev = { t with st := b' } := by
    rw [← (exec_frame h).keyPrev]; rfl
  exact ⟨b', answered.trans (congrArg _ keptKeys)⟩

/-- Settles O47: KeyPrev is the other field, ST kept as it is. -/
theorem previousKeysAreReadByTheWaitOnly : Obligations.PreviousKeysAreReadByTheWaitOnly := by
  intro i s p
  obtain ⟨answers, faults⟩ := exec_of_unread_changed (b := s.st) (p := p) (s := s) (i := i)
  refine ⟨fun t h => ?_, faults⟩
  obtain ⟨b', answered, kept⟩ := answers t h
  rw [kept rfl] at answered
  exact answered

end Sys2Proof.Machine
end

section
/-! PROOFS of the families 20_memory.md and 43_memory_index.md: the canonical form, FX33, FX55 and FX65. -/
namespace Sys2Proof.Machine

/-! ## Memories that read alike (20_memory.md R50; log 22) -/

/-- No cell of the list stands at the address, so it reads 0x00. -/
theorem lookupCell_of_forall_ne {a : Nat} {cs : List Host.Cell} (h : ∀ c ∈ cs, c.1 ≠ a) : lookupCell a cs = 0x00#8 := by
  induction cs with
  | nil => rfl
  | cons c cs ih =>
    rw [List.forall_mem_cons] at h
    rw [lookupCell, if_neg h.1, ih h.2]

theorem lookupCell_head (c : Host.Cell) (cs : List Host.Cell) : lookupCell c.1 (c :: cs) = c.2 := by
  simp [lookupCell]

/-- Of two canonical lists that read alike, neither begins at a lower address: its first byte is not 0x00, and the
other list, whose addresses are all greater, reads 0x00 there. -/
theorem not_head_lt_head {c d : Host.Cell} {cs ds : List Host.Cell} (nonzero : c.2 ≠ 0x00#8)
    (rising : ∀ e ∈ ds, d.1 < e.1) (same : lookupCell c.1 (c :: cs) = lookupCell c.1 (d :: ds)) : ¬ c.1 < d.1 := by
  intro below
  rw [lookupCell_head, lookupCell_of_forall_ne] at same
  · exact nonzero same
  · intro e he
    rcases List.mem_cons.1 he with rfl | he
    · exact below.ne'
    · exact (below.trans (rising e he)).ne'

theorem risingCells_cons {c : Host.Cell} {cs : List Host.Cell} :
    risingCells (c :: cs) = true ↔ (∀ d ∈ cs, c.1 < d.1) ∧ risingCells cs = true := by
  simp [risingCells]

theorem cells_eq_of_lookupCell_eq {cs ds : List Host.Cell} (hc : risingCells cs = true) (hd : risingCells ds = true)
    (nc : ∀ c ∈ cs, c.2 ≠ 0x00#8) (nd : ∀ d ∈ ds, d.2 ≠ 0x00#8)
    (same : ∀ a, lookupCell a cs = lookupCell a ds) : cs = ds := by
  induction cs generalizing ds with
  | nil =>
    cases ds with
    | nil => rfl
    | cons d ds => exact absurd ((lookupCell_head d ds).symm.trans (same d.1).symm) (nd d (by simp))
  | cons c cs ih =>
    cases ds with
    | nil => exact absurd ((lookupCell_head c cs).symm.trans (same c.1)) (nc c (by simp))
    | cons d ds =>
      rw [risingCells_cons] at hc hd
      rw [List.forall_mem_cons] at nc nd
      have notBelow := not_head_lt_head nc.1 hd.1 (same c.1)
      have notAbove := not_head_lt_head nd.1 hc.1 (same d.1).symm
      have sameAddress : c.1 = d.1 := by omega
      have sameByte : c.2 = d.2 := by
        rw [← lookupCell_head c cs, same c.1, sameAddress, lookupCell_head]
      have sameCell : c = d := Prod.ext sameAddress sameByte
      subst sameCell
      refine congrArg _ (ih hc.2 hd.2 nc.2 nd.2 fun a => ?_)
      by_cases ha : c.1 = a
      · subst ha
        rw [lookupCell_of_forall_ne fun e he => (hc.1 e he).ne',
          lookupCell_of_forall_ne fun e he => (hd.1 e he).ne']
      · simpa [lookupCell, ha] using same a

theorem Memory.wf_iff {m : Memory} :
    m.wf = true ↔ risingCells m.cells = true ∧ ∀ c ∈ m.cells, c.1 < memSize ∧ c.2 ≠ 0x00#8 := by
  simp [Memory.wf]

/-- Settles O11: by induction on the two rising lists, whose heads are the same cell. -/
theorem memoriesThatReadAlikeAreEqual : Obligations.MemoriesThatReadAlikeAreEqual := by
  intro m m' hm hm' same
  obtain ⟨rising, cells⟩ := Memory.wf_iff.1 hm
  obtain ⟨rising', cells'⟩ := Memory.wf_iff.1 hm'
  have sameCells : m.cells = m'.cells := cells_eq_of_lookupCell_eq rising rising' (fun c hc => (cells c hc).2)
    (fun c hc => (cells' c hc).2) same
  exact congrArg Memory.mk sameCells

/-! ## FX33 (43_memory_index.md R173) -/

/-- The hundreds, tens and ones of a byte, as the bytes FX33 stores. -/
def decimalDigit (b : Byte) : Nat → Byte
  | 0 => BitVec.ofNat 8 (b.toNat / 100)
  | 1 => BitVec.ofNat 8 (b.toNat / 10 % 10)
  | _ => BitVec.ofNat 8 (b.toNat % 10)

/-- The memory after FX33. -/
def decimalMem (i : Word) (b : Byte) (m : Memory) : Memory :=
  ((m.write (dataAddress i 0) (decimalDigit b 0)).write (dataAddress i 1) (decimalDigit b 1)).write (dataAddress i 2)
    (decimalDigit b 2)

section
variable {x : Reg} {s : State}

theorem exec_ldBVx (h : OperandsReadable (.ldBVx x) s) :
    exec (.ldBVx x) s = finish (memWrite (dataAddress s.i 0) (decimalDigit (s.getV x) 0) s >>= fun s1 =>
      memWrite (dataAddress s.i 1) (decimalDigit (s.getV x) 1) s1 >>= fun s2 =>
        memWrite (dataAddress s.i 2) (decimalDigit (s.getV x) 2) s2) := by
  have readX : s.readable (.v x) = true := h _ (by simp [itemsRead])
  have readI : s.readable .i = true := h _ (by simp [itemsRead])
  rw [exec, execLdBVx, readV_eq_ok readX, except_ok_bind, readI_eq_ok readI, except_ok_bind]
  rfl

theorem exec_ldBVx_of_lt (h : OperandsReadable (.ldBVx x) s) (last : dataAddress s.i 2 < memSize) :
    exec (.ldBVx x) s = .next (s.setMem (decimalMem s.i (s.getV x) s.mem)) := by
  simp only [dataAddress] at last
  rw [exec_ldBVx h, memWrite_eq_ok (by simp only [dataAddress]; omega), except_ok_bind,
    memWrite_eq_ok (by simp only [dataAddress]; omega), except_ok_bind, memWrite_eq_ok (by simp only [dataAddress]; omega)]
  rfl

/-- FX33 past the end stops at the first of its three addresses that is outside (60_exceptions.md R235). -/
theorem exec_ldBVx_of_ge (h : OperandsReadable (.ldBVx x) s) (last : memSize ≤ dataAddress s.i 2) :
    exec (.ldBVx x) s = .fault (.memoryOutOfRange (max s.i.toNat memSize)) := by
  rw [exec_ldBVx h]
  simp only [dataAddress] at last ⊢
  rcases Nat.lt_or_ge (s.i.toNat + 0) memSize with first | first
  · rw [memWrite_eq_ok first, except_ok_bind]
    rcases Nat.lt_or_ge (s.i.toNat + 1) memSize with second | second
    · rw [memWrite_eq_ok second, except_ok_bind, memWrite_eq_error last, finish_error,
        show s.i.toNat + 2 = max s.i.toNat memSize by omega]
    · rw [memWrite_eq_error second, except_error_bind, finish_error,
        show s.i.toNat + 1 = max s.i.toNat memSize by omega]
  · rw [memWrite_eq_error first, except_error_bind, finish_error,
      show s.i.toNat + 0 = max s.i.toNat memSize by omega]

theorem read_decimalMem (i : Word) (b : Byte) (m : Memory) {k : Nat} (hk : k < 3) :
    (decimalMem i b m).read (dataAddress i k) = decimalDigit b k := by
  unfold decimalMem
  interval_cases k <;> simp [Memory.read_write, dataAddress]

theorem read_decimalMem_other {i : Word} {b : Byte} {m : Memory} {a : Nat} (h : ∀ k < 3, a ≠ dataAddress i k) :
    (decimalMem i b m).read a = m.read a := by
  unfold decimalMem
  rw [Memory.read_write_other (h 2 (by decide)), Memory.read_write_other (h 1 (by decide)),
    Memory.read_write_other (h 0 (by decide))]

/-- The three digits as numbers. -/
theorem decimalDigit_toNat (b : Byte) :
    (decimalDigit b 0).toNat = b.toNat / 100 ∧ (decimalDigit b 1).toNat = b.toNat / 10 % 10 ∧
      (decimalDigit b 2).toNat = b.toNat % 10 := by
  have hb := b.isLt
  simp only [decimalDigit, BitVec.toNat_ofNat]
  omega

theorem decimalDigit_le_nine (b : Byte) {k : Nat} (hk : k < 3) : (decimalDigit b k).toNat ≤ 9 := by
  have hb := b.isLt
  obtain ⟨h0, h1, h2⟩ := decimalDigit_toNat b
  interval_cases k <;> omega

theorem decimalDigits_sum (b : Byte) :
    b.toNat = 100 * (decimalDigit b 0).toNat + 10 * (decimalDigit b 1).toNat + (decimalDigit b 2).toNat := by
  obtain ⟨h0, h1, h2⟩ := decimalDigit_toNat b
  omega

/-- Settles O29: three byte writes, and the digits of a byte. -/
theorem decimalDigitsAreStored : Obligations.DecimalDigitsAreStored := by
  intro x s h last
  refine ⟨_, exec_ldBVx_of_lt h last, sameExcept_setMem s _ (by simp), ?sum, fun k hk => ?digit, fun a ha => ?other⟩
  case sum =>
    simp only [State.setMem_mem, read_decimalMem _ _ _ (show 0 < 3 by decide),
      read_decimalMem _ _ _ (show 1 < 3 by decide), read_decimalMem _ _ _ (show 2 < 3 by decide)]
    exact decimalDigits_sum _
  case digit =>
    simp only [State.setMem_mem, read_decimalMem _ _ _ hk]
    exact decimalDigit_le_nine _ hk
  case other => exact read_decimalMem_other ha

/-! ## FX55 and FX65 within the memory (43_memory_index.md R174, R175) -/

theorem readable_i_of_ldMemVx (h : OperandsReadable (.ldMemVx x) s) : s.readable .i = true :=
  h _ (by simp [itemsRead])

theorem readable_v_of_ldMemVx (h : OperandsReadable (.ldMemVx x) s) {j : Nat} (hj : j < 0 + (x.toNat + 1)) :
    s.readable (.v (BitVec.ofNat 4 j)) = true :=
  h _ (by
    simp only [itemsRead, List.mem_cons, List.mem_map, List.mem_range]
    exact .inr ⟨j, by omega, rfl⟩)

theorem readable_i_of_ldVxMem (h : OperandsReadable (.ldVxMem x) s) : s.readable .i = true :=
  h _ (by simp [itemsRead])

/-- The advance below the end of the memory does not wrap. -/
theorem advanceIndex_i {t : State} (increment : t.cfg.qIndexIncrement = true) (last : t.i.toNat + x.toNat < 4096) :
    (t.advanceIndex x).i.toNat = t.i.toNat + x.toNat + 1 := by
  rw [State.advanceIndex, if_pos increment, State.setI_i, BitVec.toNat_ofNat]
  omega

@[simp] theorem advanceIndex_mem (x : Reg) (t : State) : (t.advanceIndex x).mem = t.mem := by
  rcases State.advanceIndex_cases x t with ⟨_, e⟩ | ⟨_, e⟩ <;> rw [e]
  rfl

@[simp] theorem getV_advanceIndex (x r : Reg) (t : State) : (t.advanceIndex x).getV r = t.getV r := by
  rcases State.advanceIndex_cases x t with ⟨_, e⟩ | ⟨_, e⟩ <;> rw [e]
  rfl

theorem ofNat_toNat_sub (i : Word) (r : Reg) : BitVec.ofNat 4 (i.toNat + r.toNat - i.toNat) = r := by
  rw [Nat.add_sub_cancel_left, BitVec.ofNat_toNat, BitVec.setWidth_eq]

/-- What an answered FX55 has done to memory. -/
theorem exec_ldMemVx_mem {t : State} (h : exec (.ldMemVx x) s = .next t) :
    (∀ r : Reg, r.toNat ≤ x.toNat → t.mem.read (dataAddress s.i r.toNat) = s.getV r) ∧
      (∀ a, (∀ k ≤ x.toNat, a ≠ dataAddress s.i k) → t.mem.read a = s.mem.read a) ∧
      dataAddress s.i x.toNat < 4096 := by
  obtain ⟨u, stored, rfl⟩ := execLdMemVx_next h
  obtain ⟨m, rfl, _, read, last, _⟩ := storeRegs_eq_ok stored
  rw [advanceIndex_mem, State.setMem_mem]
  simp only [dataAddress] at *
  refine ⟨fun r hr => ?_, fun a ha => ?_, ?_⟩
  · rw [read, if_pos (by omega), ofNat_toNat_sub]
  · rw [read, if_neg]
    rintro ⟨low, high⟩
    exact ha (a - s.i.toNat) (by omega) (by omega)
  · have bound : s.i.toNat + 0 + (x.toNat + 1) ≤ 4096 := last (by omega)
    omega

theorem exec_ldMemVx_completes (h : OperandsReadable (.ldMemVx x) s) (last : dataAddress s.i x.toNat < 4096) :
    ∃ t, exec (.ldMemVx x) s = .next t := by
  have inMemory : s.i.toNat + 0 + (x.toNat + 1) ≤ memSize := last
  obtain ⟨t, stored⟩ := storeRegs_completes (fun j _ hj => readable_v_of_ldMemVx h hj) inMemory
  exact ⟨t.advanceIndex x, by rw [exec_ldMemVx (readable_i_of_ldMemVx h), stored]; rfl⟩

/-- An answered FX55 within the memory has advanced I by x + 1, under `Q_INDEX_INCREMENT`; FX65 likewise below. -/
theorem exec_ldMemVx_i {t : State} (h : exec (.ldMemVx x) s = .next t) (last : dataAddress s.i x.toNat < 4096)
    (increment : s.cfg.qIndexIncrement = true) : t.i.toNat = s.i.toNat + x.toNat + 1 := by
  obtain ⟨u, stored, rfl⟩ := execLdMemVx_next h
  obtain ⟨m, rfl, _⟩ := storeRegs_eq_ok stored
  exact advanceIndex_i (t := s.setMem m) increment last

/-- Settles O30: the bulk store and the advance of I. -/
theorem bulkStore : Obligations.BulkStore := by
  intro x s h last
  obtain ⟨t, answered⟩ := exec_ldMemVx_completes h last
  obtain ⟨stored, others, _⟩ := exec_ldMemVx_mem answered
  exact ⟨t, answered, exec_frame answered, stored, others, exec_ldMemVx_i answered last⟩

theorem loadRegs_of_ldVxMem {u : State} (loaded : loadRegs s.i (x.toNat + 1) 0 s = .ok u) :
    (∀ r : Reg, r.toNat ≤ x.toNat → u.getV r = s.mem.read (dataAddress s.i r.toNat)) ∧
      (∀ r : Reg, x.toNat < r.toNat → u.getV r = s.getV r) ∧ u.i = s.i ∧ u.cfg = s.cfg := by
  have hx : x.toNat < 16 := x.isLt
  obtain ⟨v, w, rfl, values, _⟩ := loadRegs_eq_ok (by omega) loaded
  refine ⟨fun r hr => ?_, fun r hr => ?_, rfl, rfl⟩
  · rw [values, if_pos (by omega)]; rfl
  · rw [values, if_neg (by omega)]

theorem exec_ldVxMem_completes (hi : s.readable .i = true) (last : dataAddress s.i x.toNat < 4096) :
    ∃ t, exec (.ldVxMem x) s = .next t := by
  have inMemory : s.i.toNat + 0 + (x.toNat + 1) ≤ memSize := last
  obtain ⟨t, loaded⟩ := loadRegs_completes (s := s) inMemory
  exact ⟨t.advanceIndex x, by rw [exec_ldVxMem hi, loaded]; rfl⟩

/-- What an answered FX65 has done to the registers. -/
theorem exec_ldVxMem_v {t : State} (h : exec (.ldVxMem x) s = .next t) :
    (∀ r : Reg, r.toNat ≤ x.toNat → t.getV r = s.mem.read (dataAddress s.i r.toNat)) ∧
      ∀ r : Reg, x.toNat < r.toNat → t.getV r = s.getV r := by
  obtain ⟨u, loaded, rfl⟩ := execLdVxMem_next h
  obtain ⟨low, high, _⟩ := loadRegs_of_ldVxMem loaded
  exact ⟨fun r hr => (getV_advanceIndex x r u).trans (low r hr), fun r hr => (getV_advanceIndex x r u).trans (high r hr)⟩

theorem exec_ldVxMem_i {t : State} (h : exec (.ldVxMem x) s = .next t) (last : dataAddress s.i x.toNat < 4096)
    (increment : s.cfg.qIndexIncrement = true) : t.i.toNat = s.i.toNat + x.toNat + 1 := by
  obtain ⟨u, loaded, rfl⟩ := execLdVxMem_next h
  obtain ⟨_, _, sameI, sameCfg⟩ := loadRegs_of_ldVxMem loaded
  rw [← sameI]
  exact advanceIndex_i (sameCfg ▸ increment) (sameI ▸ last)

/-- Settles O31: the bulk load and the advance of I. -/
theorem bulkLoad : Obligations.BulkLoad := by
  intro x s h last
  obtain ⟨t, answered⟩ := exec_ldVxMem_completes (readable_i_of_ldVxMem h) last
  obtain ⟨low, high⟩ := exec_ldVxMem_v answered
  exact ⟨t, answered, exec_frame answered, low, high, exec_ldVxMem_i answered last⟩

/-! ## Past the end of the memory -/

/-- Settles O32: each stops at its first address outside the memory. -/
theorem dataAddressesBeyondMemoryStop : Obligations.DataAddressesBeyondMemoryStop := by
  intro x s
  refine ⟨fun h last => exec_ldBVx_of_ge h last, fun h last => ?_, fun h last => ?_⟩
  · have beyond : memSize < s.i.toNat + 0 + (x.toNat + 1) := Nat.lt_succ_of_le last
    rw [exec_ldMemVx (readable_i_of_ldMemVx h),
      storeRegs_out_of_range (fun j _ hj => readable_v_of_ldMemVx h hj) (Nat.succ_pos _) beyond]
    rfl
  · have beyond : memSize < s.i.toNat + 0 + (x.toNat + 1) := Nat.lt_succ_of_le last
    rw [exec_ldVxMem (readable_i_of_ldVxMem h), loadRegs_out_of_range (Nat.succ_pos _) beyond]
    rfl

/-! ## The store, and the load or the fetch after it -/

/-- Settles O33: FX65 reads each register's own byte back; FX55 and FX65 leave the higher registers alone. -/
theorem bulkLoadUndoesBulkStore : Obligations.BulkLoadUndoesBulkStore := by
  intro x s t u store load r
  obtain ⟨stored, _, _⟩ := exec_ldMemVx_mem store
  obtain ⟨low, high⟩ := exec_ldVxMem_v load
  rcases Nat.lt_or_ge x.toNat r.toNat with above | within
  · exact (high r above).trans ((exec_frame store).v r List.not_mem_nil)
  · exact (low r within).trans (stored r within)

/-- Settles O34: the two bytes at the old I are V0 and V1, so the step there fetches their word. -/
theorem storedWordIsFetched : Obligations.StoredWordIsFetched := by
  intro x i s t store hx hh hr decoded
  obtain ⟨stored, _, last⟩ := exec_ldMemVx_mem store
  have frame := exec_frame store
  have first : t.mem.read s.i.toNat = s.getV 0x0#4 := stored 0x0#4 (Nat.zero_le _)
  have second : t.mem.read (s.i.toNat + 1) = s.getV 0x1#4 := stored 0x1#4 hx
  have inMemory : s.i.toNat + 1 < memSize := by
    simp only [dataAddress] at last
    exact lt_of_le_of_lt (by omega) last
  have fetched : fetch (t.setPC s.i) = .ok (wordOfBytes (s.getV 0x0#4) (s.getV 0x1#4)) := by
    rw [← first, ← second]
    exact memReadWord_eq_ok (s := t.setPC s.i) inMemory
  have halt : (t.setPC s.i).halt = none := frame.halt.trans hh
  have running : (t.setPC s.i).execState = .running :=
    (frame.execState fun written => by simpa using mem_partsWritten_ldMemVx.1 written).trans hr
  rw [step_running halt running, runInstruction_of_fetch_eq_ok fetched decoded]
  rfl

end

end Sys2Proof.Machine
end

section
/-! PROOFS of the family 44_display_random.md: DRW (R191 to R196). -/
namespace Sys2Proof.Machine

section
variable {x y : Reg} {n : Nibble} {s t : State}

/-! ## The throttle -/

theorem drawStalls_eq_false (h : s.cfg.qDrawThrottle = false ∨ s.redraw = false) : s.drawStalls = false := by
  rcases h with h | h <;> simp [State.drawStalls, h]

theorem exec_drw_of_stalls (h : s.drawStalls = true) : exec (.drw x y n) s = .next s.rewind := by
  simp [exec, execDrw, h]

/-- Settles O39: a stalled draw goes back by the 2 that the step advanced. -/
theorem throttledDrawStalls : Obligations.ThrottledDrawStalls := by
  intro x y n s throttle redraw
  have stalls : s.drawStalls = true := by simp [State.drawStalls, throttle, redraw]
  refine ⟨exec_drw_of_stalls stalls, fun hh hx op fetched decoded => ?_⟩
  have stallsAfterAdvance : s.advance.drawStalls = true := stalls
  rw [step_running hh hx, runInstruction_of_fetch_eq_ok fetched decoded, exec_drw_of_stalls stallsAfterAdvance,
    State.rewind_advance]

/-! ## An executed draw -/

/-- The cells the sprite at I covers, at the coordinates V[x], V[y]. -/
def drawCovers (x y : Reg) (n : Nibble) (s : State) : Fin 32 → Fin 64 → Prop :=
  spriteCovers s.cfg.qDrawClip ((s.getV x).toNat % 64) ((s.getV y).toNat % 32) n.toNat
    (fun r => s.mem.read (spriteAddress s.i r))

/-- What an executed draw has done to the display, to VF and to Redraw. -/
theorem exec_drw_next (running : s.drawStalls = false) (h : exec (.drw x y n) s = .next t) :
    (∀ row col, drawCovers x y n s row col → t.disp.cell row col = flipped (s.disp.cell row col)) ∧
      (∀ row col, ¬ drawCovers x y n s row col → t.disp.cell row col = s.disp.cell row col) ∧
      (∃ collision, t.getV 0xF#4 = flagByte collision ∧
        (collision = true ↔ ∃ row col, drawCovers x y n s row col ∧ s.disp.cell row col = 255#8)) ∧
      t.redraw = true := by
  obtain ⟨on, off, flag⟩ := drawn_flips x y n s
  rcases execDrw_next h with ⟨stalls, _⟩ | ⟨_, rfl⟩
  · rw [running] at stalls; cases stalls
  · exact ⟨on, off, ⟨(drawn x y n s).2, getV_setV_same .., by simpa [drawCovers] using flag⟩, rfl⟩

/-- An executed draw leaves PC alone: the stalled one moves it. -/
theorem exec_drw_frame (running : s.drawStalls = false) (h : exec (.drw x y n) s = .next t) :
    SameExcept [0xF#4] [.disp, .redraw] s t := by
  rcases execDrw_next h with ⟨stalls, _⟩ | ⟨_, rfl⟩
  · rw [running] at stalls; cases stalls
  · exact ((sameExcept_setDisp s _ (by simp)).trans (sameExcept_setFlag _ _ (by simp))).trans
      (sameExcept_setRedraw _ _ (by simp))

/-- Settles O36: the blit flips each covered cell once, and its collision is VF. -/
theorem drawFlipsExactlyTheCoveredCells : Obligations.DrawFlipsExactlyTheCoveredCells := by
  intro x y n s readable throttle
  have running := drawStalls_eq_false throttle
  have answered := exec_drw readable running
  obtain ⟨on, off, ⟨collision, vf, collided⟩, redraw⟩ := exec_drw_next running answered
  refine ⟨_, answered, exec_drw_frame running answered, on, off, fun hit => ?_, fun miss => ?_, redraw⟩
  · rw [vf, flagByte_eq_one]
    exact collided.2 hit
  · rw [vf, flagByte_eq_zero, Bool.eq_false_iff]
    intro hit
    obtain ⟨row, col, covered, wasOn⟩ := collided.1 hit
    exact miss row col covered wasOn

theorem flipped_eq_off {b : Byte} : flipped b = 0#8 ↔ b = 255#8 := by
  by_cases h : b = 255#8 <;> simp [flipped, h]

/-- Settles O37: a cell goes from 255 to 0 exactly when it was on and is covered. -/
theorem collisionMeansACellWentOff : Obligations.CollisionMeansACellWentOff := by
  intro x y n s t h throttle
  obtain ⟨on, off, ⟨collision, vf, collided⟩, _⟩ := exec_drw_next (drawStalls_eq_false throttle) h
  rw [vf]
  refine ⟨?_, (flagByte_zero_or_one collision).symm⟩
  rw [flagByte_eq_one, collided]
  constructor
  · rintro ⟨row, col, covered, wasOn⟩
    exact ⟨row, col, wasOn, (on row col covered).trans (flipped_eq_off.2 wasOn)⟩
  · rintro ⟨row, col, wasOn, wentOff⟩
    refine ⟨row, col, ?_, wasOn⟩
    by_contra uncovered
    rw [off row col uncovered, wasOn] at wentOff
    exact absurd wentOff (by decide)

/-! ## The same draw again -/

theorem drawCovers_congr {u : State} (hx : u.getV x = s.getV x) (hy : u.getV y = s.getV y) (hi : u.i = s.i)
    (hm : ∀ a, u.mem.read a = s.mem.read a) (hc : u.cfg = s.cfg) : drawCovers x y n u = drawCovers x y n s := by
  simp only [drawCovers, hx, hy, hi, hm, hc]

/-- Settles O38: the second draw covers the same cells, and a flip of a flip is the cell. -/
theorem drawingTwiceRestoresTheDisplay : Obligations.DrawingTwiceRestoresTheDisplay := by
  intro x y n s t u hx hy wf redraw first second
  have running := drawStalls_eq_false (.inr redraw)
  have frame := exec_drw_frame running first
  obtain ⟨on, off, _⟩ := exec_drw_next running first
  obtain ⟨on', off', _⟩ := exec_drw_next (drawStalls_eq_false (.inr rfl)) second
  have sameCells : drawCovers x y n t.frameBoundary = drawCovers x y n s :=
    drawCovers_congr (frame.v x (by simpa using hx)) (frame.v y (by simpa using hy)) (frame.i (by simp)).1
      (frame.mem (by simp)) frame.cfg
  rw [sameCells] at on' off'
  refine Display.ext_cell fun row col => ?_
  by_cases covered : drawCovers x y n s row col
  · have flippedTwice : u.disp.cell row col = flipped (flipped (s.disp.cell row col)) :=
      on row col covered ▸ on' row col covered
    rw [flippedTwice, flipped_flipped ((Display.wf_iff _).1 wf row col)]
  · exact (off' row col covered).trans (off row col covered)

end

end Sys2Proof.Machine
end

section
/-! PROOFS of the families 40_step_cycle.md and 60_exceptions.md: the errors of the fetch, the halted machine, the wait
check and the host's operations. -/
namespace Sys2Proof.Machine

/-! ## The errors of the fetch and the decoder (40_step_cycle.md R101, R103) -/

section
variable {s : State}

theorem runInstruction_of_fetch_eq_error {f : Fault} (h : fetch s = .error f) : runInstruction s = .fault f := by
  simp [runInstruction, h, raiseFatal]

theorem runInstruction_of_unknown {op w : Word} (fetched : fetch s = .ok op) (h : decode op = .unknown w) :
    runInstruction s = .fault (.unknownOpcode w s.pc) := by
  simp [runInstruction, fetched, h, raiseFatal]

/-- Settles O2: the unknown word, and the two failing fetches. -/
theorem fetchAndDecodeErrorsStop : Obligations.FetchAndDecodeErrorsStop := by
  intro s hh hx
  rw [step_running hh hx]
  refine ⟨fun op _ fetched unknown => runInstruction_of_unknown fetched unknown, fun last => ?_, fun beyond => ?_⟩
  · exact runInstruction_of_fetch_eq_error (fetch_of_pc_eq_last (congrArg Nat.succ last))
  · exact runInstruction_of_fetch_eq_error (memReadWord_eq_error_first beyond)

/-! ## The halted machine (60_exceptions.md R231, R236) -/

theorem hostStep_of_next {t : State} (hh : s.halt = none) (h : step s = .next t) : s.hostStep = t := by
  simp [State.hostStep, hh, h]

theorem hostStep_of_fault {f : Fault} (hh : s.halt = none) (h : step s = .fault f) :
    s.hostStep = s.afterFatal f := by
  simp [State.hostStep, hh, h]

theorem hostStep_of_halted {f : Fault} (h : s.halt = some f) : s.hostStep = s := by
  simp [State.hostStep, h]

/-- Settles O3: the state after a fatal error is halted, and a halted state has no next one. -/
theorem fatalErrorHaltsForGood : Obligations.FatalErrorHaltsForGood := by
  intro s hh
  refine ⟨fun t h => hostStep_of_next hh h, fun f h => ?_⟩
  have halted : (s.afterFatal f).halt = some f := State.afterFatal_halt f s
  rw [hostStep_of_fault hh h]
  refine ⟨halted, State.afterFatal_cfg f s, hostStep_of_halted halted, fun t answered => ?_⟩
  rw [step_halted halted] at answered
  cases answered

/-! ## The wait check (40_step_cycle.md R104, R106) -/

theorem pressEdge_eq_false_iff {k : Key} : s.pressEdge k = false ↔ s.wasPressed k = true ∨ s.pressed k = false := by
  rw [State.pressEdge, Bool.and_eq_false_iff, Bool.not_eq_false']

theorem waitCheck_of_held {r : Reg} {k : Key} (h : s.pressed k = true) : waitCheck r (.waitingForRelease k) s = s := by
  simp [waitCheck, h]

theorem setWidth_eight_toNat (k : Key) : (k.setWidth 8).toNat = k.toNat := by
  rw [BitVec.toNat_setWidth]
  omega

/-- Settles O44: the wait check's four transitions. -/
theorem waitCheckTransitions : Obligations.WaitCheckTransitions := by
  intro r s hh
  refine ⟨fun hx => ⟨fun k wasOff isOn lower => ?_, fun noEdge => ?_⟩, fun k hx => ⟨fun held => ?_, fun off => ?_⟩⟩ <;>
    rw [step_awaiting hh hx]
  · have found : s.firstPressEdge = some k := firstPressEdge_eq_some_iff.2
      ⟨pressEdge_eq_true_iff.2 ⟨wasOff, isOn⟩, fun j hj => pressEdge_eq_false_iff.2 (lower j hj)⟩
    refine ⟨_, rfl, waitCheck_frame r _ s, ?_⟩
    rw [waitCheck_of_firstPressEdge_eq_some found, State.getV_setExec, getV_setV_same]
    exact ⟨setWidth_eight_toNat k, rfl⟩
  · rw [waitCheck_of_firstPressEdge_eq_none (firstPressEdge_eq_none.2 fun k => pressEdge_eq_false_iff.2 (noEdge k))]
  · rw [waitCheck_of_held held]
  · rw [waitCheck_of_released off]
    exact ⟨_, rfl, sameExcept_setExec s _ (by simp), rfl⟩

end

/-! ## The host's operations (60_exceptions.md R243 to R246) -/

theorem timerTick_frame (s : State) : SameExcept [] [.dt, .st] s s.timerTick := by
  rcases s.timerTick_cases with e | e | e | e <;> rw [e]
  · exact SameExcept.refl _ _ s
  · exact sameExcept_setDT s _ (by simp)
  · exact sameExcept_setST s _ (by simp)
  · exact (sameExcept_setDT s _ (by simp)).trans (sameExcept_setST _ _ (by simp))

/-- A timer at 0 is not written, and is one lower than 0 in natural numbers all the same. -/
theorem timerTick_toNat (s : State) :
    s.timerTick.dt.toNat = s.dt.toNat - 1 ∧ s.timerTick.st.toNat = s.st.toNat - 1 := by
  unfold State.timerTick
  by_cases hdt : s.dt.toNat > 0 <;> by_cases hst : s.st.toNat > 0 <;> simp [hdt, hst, countDown_toNat] <;> omega

/-- Settles O55: the two countdowns and the frame of their writes. -/
theorem timerTickCountsBothDown : Obligations.TimerTickCountsBothDown :=
  fun s => ⟨timerTick_frame s, timerTick_toNat s⟩

/-- Settles O56: both operations are the updates the statement writes out. -/
theorem snapshotAndFrameBoundary : Obligations.SnapshotAndFrameBoundary := fun _ _ => ⟨rfl, rfl⟩

/-- Settles O60: 32 rows of 64 bytes, laid end to end. -/
theorem hostReadsTheDisplayInOrder : Obligations.HostReadsTheDisplayInOrder := by
  intro s
  constructor
  · rw [State.displayBytes, length_flatRows, Vector.length_toList]
  · intro row col
    rw [State.displayBytes, Nat.mul_comm, getElem?_flatRows s.disp.toList (by simp) col.isLt]
    simp [Display.cell]

end Sys2Proof.Machine
end

section
/-! PROOFS of the family 70_reset_and_hazards.md: the constructed machine and the boot (R270 to R274). -/
namespace Sys2Proof.Machine

/-- Settles O54: the fields of the constructed state, and the default font byte by byte. -/
theorem resetState : Obligations.ResetState := by
  refine ⟨fun _ => rfl, rfl, rfl, fun r => ?registers, rfl, rfl, rfl, rfl, clearedDisplay_cell,
    fun k => ⟨?pressed, ?wasPressed⟩, rfl, rfl, rfl, rfl, rfl, rfl, rfl, rfl, rfl, rfl, ?font⟩
  case registers => exact Vector.getElem_replicate ..
  case pressed => exact Vector.getElem_replicate ..
  case wasPressed => exact Vector.getElem_replicate ..
  case font => decide

/-! ## The boot -/

/-- The memory that the boot leaves: the font at 0x50, then the ROM at 0x200. -/
def bootMem (cfg : Config) (rom : List Byte) : Memory :=
  (Memory.writeBytes fontBase (fontBytes cfg.fontImage) ⟨[]⟩).writeBytes romBase rom

section
variable (cfg : Config) {rom : List Byte}

theorem boot_of_too_large (h : 3584 < rom.length) : boot cfg rom = .error (.romTooLarge rom.length) := by
  have tooLarge : rom.length + romBase > memSize := by simp only [romBase, memSize]; omega
  rw [boot, State.loadRom, if_pos tooLarge]

theorem boot_of_fits (h : rom.length ≤ 3584) :
    boot cfg rom = .ok ((State.construct cfg).setMem (bootMem cfg rom)) := by
  have fits : ¬ rom.length + romBase > memSize := by simp only [romBase, memSize]; omega
  rw [boot, State.loadRom, if_neg fits]
  rfl

theorem bootMem_wf (h : rom.length ≤ 3584) : (bootMem cfg rom).wf = true := by
  refine Memory.wf_writeBytes ?_ (Memory.wf_writeBytes ?_ Memory.wf_empty)
  · simp only [romBase, memSize]; omega
  · rw [fontBytes_length]; decide

theorem bootMem_inv (h : rom.length ≤ 3584) : Inv ((State.construct cfg).setMem (bootMem cfg rom)) where
  mem := bootMem_wf cfg h
  disp := (construct_inv cfg).disp
  depth := (construct_inv cfg).depth
  returns := (construct_inv cfg).returns
  pc := (construct_inv cfg).pc
  waiting := (construct_inv cfg).waiting

/-- Below the ROM the memory is that of the font. -/
theorem read_bootMem_below_rom {a : Nat} (h : a < 0x200) :
    (bootMem cfg rom).read a = (Memory.writeBytes fontBase (fontBytes cfg.fontImage) ⟨[]⟩).read a := by
  rw [bootMem, Memory.read_writeBytes, dif_neg]
  simp only [romBase]
  omega

theorem read_bootMem_font (d : Fin 16) (j : Fin 5) :
    (bootMem cfg rom).read (0x50 + 5 * d.val + j.val) = cfg.fontImage[d][j] := by
  have position : 0x50 + 5 * d.val + j.val - fontBase = 5 * d.val + j.val := by simp only [fontBase]; omega
  have glyph := fontBytes_getElem? cfg.fontImage d j
  rw [← position] at glyph
  obtain ⟨within, value⟩ := List.getElem?_eq_some_iff.1 glyph
  rw [read_bootMem_below_rom cfg (by omega), Memory.read_writeBytes, dif_pos ⟨by simp only [fontBase]; omega, within⟩]
  exact value

theorem read_bootMem_rom (k : Nat) (h : k < rom.length) : (bootMem cfg rom).read (0x200 + k) = rom[k] := by
  have position : 0x200 + k - romBase = k := by simp only [romBase]; omega
  rw [bootMem, Memory.read_writeBytes, dif_pos ⟨Nat.le_add_right _ _, by rw [position]; exact h⟩]
  simp only [position]

theorem read_bootMem_elsewhere {a : Nat} (h : a < 0x50 ∨ (0xA0 ≤ a ∧ a < 0x200) ∨ 0x200 + rom.length ≤ a) :
    (bootMem cfg rom).read a = 0x00#8 := by
  rw [bootMem, Memory.read_writeBytes, dif_neg, Memory.read_writeBytes, dif_neg]
  · rfl
  · rw [fontBytes_length]
    simp only [fontBase]
    omega
  · simp only [romBase]
    omega

end

/-- Settles O57: the ROM's length decides, and the three ranges of addresses do not meet. -/
theorem bootPlacesFontAndRom : Obligations.BootPlacesFontAndRom := by
  intro cfg rom
  refine ⟨boot_of_too_large cfg, fun h => ⟨_, boot_of_fits cfg h, bootMem_inv cfg h, ?_, ?_⟩⟩
  · exact sameExcept_setMem _ _ (by simp)
  · exact ⟨read_bootMem_font cfg, read_bootMem_rom cfg, fun a ha => read_bootMem_elsewhere cfg ha⟩

end Sys2Proof.Machine
end
